-- ==== Sys2Proof/Config.lean ====
section
/-! DEFINITION. The parameters of the hardware (spec 00_scope.md R8). All are fixed; `MAX_STEPS` is an
argument of each run call and is no constant. The spec leaves no value undefined, so there is no free
value here. -/

namespace Sys2Proof.Config

/-- `WORD_TRITS`: trits in a Word (R8). -/
def wordTrits : Nat := 9

/-- `WORD_MAX`: the largest Word value, (3^9 − 1) / 2 (R8). -/
def wordMax : Int := 9841

/-- `WORD_MOD`: the number of distinct Words, 3^9 (R8). -/
def wordMod : Int := 19683

/-- `MEM_CELLS`: memory cells, addresses 0 to 161 (R8). -/
def memCells : Nat := 162

/-- `OPC_TRITS`: trits of the opcode field (R8). -/
def opcTrits : Nat := 3

/-- `OPD_TRITS`: trits of the operand field (R8). -/
def opdTrits : Nat := 6

/-- `N_INSTR`: defined instructions (R8). -/
def numInstr : Nat := 24

/-- `OPC_MAX`: the largest opcode-field value (R8). -/
def opcMax : Int := 13

/-- `OPD_MAX`: the largest operand-field value (R8). -/
def opdMax : Int := 364

/-- Words in one opcode's range, 3^6 (R8 with R73). -/
def opdMod : Int := 729

/-- `DWORD_TRITS`: trits of the register pair `R:S` (R8). -/
def dwordTrits : Nat := 18

/-- `DWORD_MAX`: the largest value of the pair, (3^18 − 1) / 2 (R8). -/
def dwordMax : Int := 193710244

end Sys2Proof.Config
end

