-- ==== Sys2Proof/Word.lean ====
section
/-! DEFINITION. The value types of the core: the Trit and the 9-trit Word (spec 10_state.md R20,
numbering of 00_scope.md R10), and the integer a Word stands for. -/

namespace Sys2Proof

/-- A ternary digit: `N` is −1, `O` (the letter) is 0, `P` is +1 (R9, R20). -/
inductive Trit where
  | N
  | O
  | P
deriving DecidableEq, Repr

/-- The integer a trit stands for (R9). -/
def Trit.toInt : Trit → Int
  | .N => -1
  | .O => 0
  | .P => 1

/-- A Word: nine trits, most significant first; `t8` has weight 3^8 and `t0` weight 1 (R10, R20).
Every combination is a Word; none is invalid. -/
structure Word where
  t8 : Trit
  t7 : Trit
  t6 : Trit
  t5 : Trit
  t4 : Trit
  t3 : Trit
  t2 : Trit
  t1 : Trit
  t0 : Trit
deriving DecidableEq, Repr

/-- `w[i]`, the trit of weight 3^i (R10). A Word has positions 0 to 8; other positions are empty. -/
def Word.trit (w : Word) (i : Nat) : Trit :=
  match i with
  | 0 => w.t0
  | 1 => w.t1
  | 2 => w.t2
  | 3 => w.t3
  | 4 => w.t4
  | 5 => w.t5
  | 6 => w.t6
  | 7 => w.t7
  | 8 => w.t8
  | _ => .O

/-- The Word whose trit of weight 3^i is `f i`. -/
def Word.ofTrits (f : Nat → Trit) : Word :=
  { t8 := f 8, t7 := f 7, t6 := f 6, t5 := f 5, t4 := f 4, t3 := f 3, t2 := f 2, t1 := f 1, t0 := f 0 }

/-- `val(w)`, the signed integer a Word stands for: the sum of `w[i] * 3^i` (R20, R102). -/
def Word.val (w : Word) : Int :=
  w.t8.toInt * 6561 + w.t7.toInt * 2187 + w.t6.toInt * 729 + w.t5.toInt * 243 + w.t4.toInt * 81 +
    w.t3.toInt * 27 + w.t2.toInt * 9 + w.t1.toInt * 3 + w.t0.toInt

/-- The all-`O` Word, the only Word of value 0 (R20). -/
def Word.zero : Word := ⟨.O, .O, .O, .O, .O, .O, .O, .O, .O⟩

end Sys2Proof
end

