-- ==== Sys2Proof/Machine/State.lean ====
section
/-! DEFINITION. The state of one engine (spec 10_state.md R21), the fault kinds (60_exceptions.md R281)
and the state after reset (R34, 70_reset_and_hazards.md R320). -/

namespace Sys2Proof.Machine

/-- The three fault kinds of the engine (R280, R281). A fault ends the step with the state unchanged
(R283); it is the spec's own stop and therefore safe. -/
inductive Fault where
  /-- AddressFault: raised at fetch by `C` outside 0 to 161, by an operand of class A or J outside 0 to
  161, by an effective address of class X outside 0 to 161, and by `load_image` (R281, R284). Safe. -/
  | addressFault
  /-- DecodeError: raised by a fetched Word whose opcode value is −13, 0 or +13 (R75, R285). Safe. -/
  | decodeError
  /-- RangeError: raised by DIV with a zero divisor, and by the converter's `encode` outside
  −9841 to 9841 (R101, R286). Safe. -/
  | rangeError
deriving DecidableEq, Repr

/-- Why an instruction has no meaning. No arm of `exec` answers with it: every row of the opcode table
is modelled. -/
inductive Refusal where
  /-- An instruction without a meaning, by its mnemonic. Safe; never raised by this model. -/
  | notModelled (mnemonic : String)
deriving DecidableEq, Repr

/-- Memory as the list of the cells that differ from what an unlisted address reads as: (address, Word)
pairs, addresses strictly rising (log entry 3). The unit of access is one Word (R50, R56). -/
structure Memory where
  cells : List (Nat × Word)
deriving DecidableEq, Repr

/-- What an address that is not listed reads as: "Memory starts zero-filled" (R34, R50). -/
def Memory.unlisted : Word := Word.zero

/-- Everything one engine instance holds (R21). Names are the spec's. -/
structure State where
  /-- The 162 memory cells (R50). -/
  mem : Memory
  /-- Accumulator (R22). -/
  S : Word
  /-- Extension register, the high Word of the pair `R:S` (R23, R29). -/
  R : Word
  /-- Index register (R24). -/
  F : Word
  /-- Program counter: the address of the next instruction, 162 after falling off the end (R25). -/
  C : Word
  /-- Sign latch: the sign of the value last written into `S` (R26; stored, log entry 10). -/
  omega : Trit
  /-- Sticky overflow flag (R27). -/
  V : Bool
  /-- Run flag: true while running, false when halted (R28). -/
  RUN : Bool
deriving DecidableEq, Repr

/-- The state of a fresh engine: every cell and register Word 0, `omega` = `O`, `V` clear, `RUN` set
(R34, R320). -/
def State.reset : State :=
  { mem := ⟨[]⟩, S := Word.zero, R := Word.zero, F := Word.zero, C := Word.zero,
    omega := .O, V := false, RUN := true }

end Sys2Proof.Machine
end

