-- ==== Sys2Proof/Machine/Numeral.lean ====
section
/-! DEFINITION. The ALU and the integer converter (spec 40_numeral_alu.md R100 to R117): pure functions
on Words and integers. `Word.val` (Word.lean) is `decode`. -/

namespace Sys2Proof

open Sys2Proof.Machine

/-- The lowest trit of the balanced numeral of `n`: remainder 0, 1, 2 gives `O`, `P`, `N` (R101, R104). -/
def lowTrit (n : Int) : Trit :=
  if n % 3 = 0 then .O else if n % 3 = 1 then .P else .N

/-- The numeral without its lowest trit. The three exact divisions of R104, `n / 3`, `(n − 1) / 3` and
`(n + 1) / 3` for remainder 0, 1 and 2, are all `(n + 1) / 3` rounded down (`lowTrit_dropTrit`). -/
def dropTrit (n : Int) : Int := (n + 1) / 3

/-- The numeral without its lowest `k` trits (R104, R105). -/
def dropTrits : Nat → Int → Int
  | 0, n => n
  | k + 1, n => dropTrits k (dropTrit n)

/-- The trit of weight 3^i of the numeral of `n` (R104). -/
def digit (n : Int) (i : Nat) : Trit := lowTrit (dropTrits i n)

/-- `word(n)`: the nine low trits of the numeral of `n`. The spec writes it only for `n` in −9841 to 9841
(R11), where it is the one Word of value `n`; beyond, it drops the higher trits (log entry 9). -/
def Word.ofInt (n : Int) : Word := Word.ofTrits (digit n)

/-- `encode(n)`: the Word of value `n`, or RangeError outside −9841 to 9841 (R101). -/
def Word.encode (n : Int) : Except Fault Word :=
  if -Config.wordMax ≤ n ∧ n ≤ Config.wordMax then .ok (Word.ofInt n) else .error .rangeError

/-- The balanced remainder of `n` modulo an odd `m`, in ±(m − 1)/2 (R105, where `m` is 3^j). -/
def bmod (n m : Int) : Int := (n + (m - 1) / 2) % m - (m - 1) / 2

/-- The one-position adder: sum trit and carry out of the column total `t` (R107, the table). -/
def columnOf (t : Int) : Trit × Trit :=
  match t with
  | -3 => (.O, .N)
  | -2 => (.P, .N)
  | -1 => (.N, .O)
  | 0 => (.O, .O)
  | 1 => (.P, .O)
  | 2 => (.N, .P)
  | _ => (.O, .P)

/-- Sum trit and carry out of two operand trits and the incoming carry (R106). -/
def addTrit (a b c : Trit) : Trit × Trit := columnOf (a.toInt + b.toInt + c.toInt)

/-- `add(w1, w2)`: trit-by-trit balanced addition with carry propagation from position 0 to 8; the
second component is the carry out of the most significant position (R106). -/
def Word.add (w1 w2 : Word) : Word × Trit :=
  let p0 := addTrit w1.t0 w2.t0 .O
  let p1 := addTrit w1.t1 w2.t1 p0.2
  let p2 := addTrit w1.t2 w2.t2 p1.2
  let p3 := addTrit w1.t3 w2.t3 p2.2
  let p4 := addTrit w1.t4 w2.t4 p3.2
  let p5 := addTrit w1.t5 w2.t5 p4.2
  let p6 := addTrit w1.t6 w2.t6 p5.2
  let p7 := addTrit w1.t7 w2.t7 p6.2
  let p8 := addTrit w1.t8 w2.t8 p7.2
  ({ t8 := p8.1, t7 := p7.1, t6 := p6.1, t5 := p5.1, t4 := p4.1, t3 := p3.1, t2 := p2.1, t1 := p1.1,
     t0 := p0.1 }, p8.2)

/-- The opposite trit: `N` and `P` change places (R109). -/
def Trit.neg : Trit → Trit
  | .N => .P
  | .O => .O
  | .P => .N

/-- `negate(w)`: every trit flipped (R109). -/
def Word.negate (w : Word) : Word := Word.ofTrits fun i => (w.trit i).neg

/-- `sign(w)`: `N`, `O` or `P` as the value is negative, zero or positive (R110). -/
def Word.sign (w : Word) : Trit :=
  if w.val < 0 then .N else if w.val = 0 then .O else .P

/-- The other reading of `sign` that R110 gives: the most significant trit, among positions below `k`,
that is not `O`, or `O` if there is none. -/
def leadingTrit (w : Word) : Nat → Trit
  | 0 => .O
  | k + 1 => if w.trit k = .O then leadingTrit w k else w.trit k

/-- `compare(w1, w2)`: LESS, EQUAL or GREATER, here `lt`, `eq`, `gt`, by value (R111). -/
def Word.compare (w1 w2 : Word) : Ordering :=
  if w1.val < w2.val then .lt else if w1.val = w2.val then .eq else .gt

/-- The trit-level form of `compare` (R112): the first position below `k`, from the top, at which the
Words differ decides, with `N` < `O` < `P`. -/
def compareTrits (w1 w2 : Word) : Nat → Ordering
  | 0 => .eq
  | k + 1 =>
    if w1.trit k = w2.trit k then compareTrits w1 w2 k
    else if (w1.trit k).toInt < (w2.trit k).toInt then .lt else .gt

/-- `shift(w, k)`: position `i` receives `w[i − k]` where that is a position of the Word, else `O`; a
positive count moves toward the most significant end, and trits moved past an end are lost (R113). -/
def Word.shift (w : Word) (k : Int) : Word :=
  Word.ofTrits fun i =>
    if 0 ≤ (i : Int) - k ∧ (i : Int) - k ≤ 8 then w.trit ((i : Int) - k).toNat else .O

/-- `pair(hi, lo)[i]`: the 18 trits of `hi ‖ lo`, positions 0 to 17 (R115). -/
def pairTrit (hi lo : Word) (i : Nat) : Trit :=
  if i < 9 then lo.trit i else hi.trit (i - 9)

/-- `val(pair(hi, lo))` (R29, R115). -/
def pairVal (hi lo : Word) : Int := hi.val * Config.wordMod + lo.val

/-- `shift18(pair(hi, lo), k)`: R113 with positions 0 to 17, given back as (high Word, low Word)
(R115, R222). -/
def shift18 (hi lo : Word) (k : Int) : Word × Word :=
  let d := fun (i : Nat) =>
    if 0 ≤ (i : Int) - k ∧ (i : Int) - k ≤ 17 then pairTrit hi lo ((i : Int) - k).toNat else .O
  (Word.ofTrits fun i => d (i + 9), Word.ofTrits d)

/-- `unpair(n)`: the (high, low) Words of the pair of value `n` (R115). -/
def unpair (n : Int) : Word × Word :=
  let lo := Word.ofInt (bmod n Config.wordMod)
  (Word.ofInt ((n - lo.val) / Config.wordMod), lo)

/-- `mulwide(w1, w2)`: the exact product as a pair (R116). -/
def mulwide (w1 w2 : Word) : Word × Word := unpair (w1.val * w2.val)

/-- `divtrunc(a, b)`: quotient rounded toward zero and the remainder that goes with it (R117; used only
for `b` not 0). -/
def divtrunc (a b : Int) : Int × Int :=
  let q := a.sign * b.sign * ((a.natAbs / b.natAbs : Nat) : Int)
  (q, a - q * b)

end Sys2Proof
end

