-- ==== Sys2Proof/Syntax.lean ====
section
/-! DEFINITION. The instructions: one constructor per row of spec/opcode_table.json, in the table's
order, each carrying the operand-field value `opnd` as a signed integer (spec 30_encoding.md R74, R77).
The three rows UNDEF_… are the opcode values that R75 leaves undefined; a Word with one of them decodes
to its row, whose meaning is DecodeError (log entry 7). Class Z rows keep the ignored operand trits, so
that assembling what was decoded gives the Word back (R73, R78; log entry 8). -/

namespace Sys2Proof

/-- An instruction with its operand-field value (R71, R74). -/
inductive Instr where
  /-- MUL, `opc` +12, class A (R183). -/
  | mul (opnd : Int)
  /-- SUB, `opc` +11, class A (R182). -/
  | sub (opnd : Int)
  /-- ADD, `opc` +10, class A (R181). -/
  | add (opnd : Int)
  /-- STX, `opc` +9, class X (R169). -/
  | stx (opnd : Int)
  /-- LDX, `opc` +8, class X (R168). -/
  | ldx (opnd : Int)
  /-- STF, `opc` +7, class A (R167). -/
  | stf (opnd : Int)
  /-- LDF, `opc` +6, class A (R166). -/
  | ldf (opnd : Int)
  /-- STR, `opc` +5, class A (R165). -/
  | str (opnd : Int)
  /-- LDR, `opc` +4, class A (R164). -/
  | ldr (opnd : Int)
  /-- XCHG, `opc` +3, class A (R163). -/
  | xchg (opnd : Int)
  /-- STA, `opc` +2, class A (R162). -/
  | sta (opnd : Int)
  /-- LDA, `opc` +1, class A (R161). -/
  | lda (opnd : Int)
  /-- JMP, `opc` −1, class J (R201). -/
  | jmp (opnd : Int)
  /-- JZ, `opc` −2, class J (R202). -/
  | jz (opnd : Int)
  /-- JP, `opc` −3, class J (R203). -/
  | jp (opnd : Int)
  /-- JN, `opc` −4, class J (R204). -/
  | jn (opnd : Int)
  /-- LOOP, `opc` −5, class J (R205). -/
  | loop (opnd : Int)
  /-- DIV, `opc` −6, class A (R184). -/
  | div (opnd : Int)
  /-- NEG, `opc` −7, class Z (R185). -/
  | neg (opnd : Int)
  /-- NOP, `opc` −8, class Z (R232). -/
  | nop (opnd : Int)
  /-- SHA, `opc` −9, class K (R221). -/
  | sha (opnd : Int)
  /-- SHD, `opc` −10, class K (R222). -/
  | shd (opnd : Int)
  /-- XSR, `opc` −11, class Z (R170). -/
  | xsr (opnd : Int)
  /-- HLT, `opc` −12, class Z (R231). -/
  | hlt (opnd : Int)
  /-- UNDEF_NNN, `opc` −13, class none (R75). -/
  | undefNnn (opnd : Int)
  /-- UNDEF_OOO, `opc` 0, class none (R75). -/
  | undefOoo (opnd : Int)
  /-- UNDEF_PPP, `opc` +13, class none (R75). -/
  | undefPpp (opnd : Int)
deriving DecidableEq, Repr

/-- The five ways an instruction uses its operand field (R76), and `none` for the undefined rows, whose
operand trits are not examined. -/
inductive OperandClass where
  | A
  | X
  | J
  | K
  | Z
  | none
deriving DecidableEq, Repr

/-- The operand-field value an instruction carries. -/
def Instr.opnd : Instr → Int
  | .mul n => n
  | .sub n => n
  | .add n => n
  | .stx n => n
  | .ldx n => n
  | .stf n => n
  | .ldf n => n
  | .str n => n
  | .ldr n => n
  | .xchg n => n
  | .sta n => n
  | .lda n => n
  | .jmp n => n
  | .jz n => n
  | .jp n => n
  | .jn n => n
  | .loop n => n
  | .div n => n
  | .neg n => n
  | .nop n => n
  | .sha n => n
  | .shd n => n
  | .xsr n => n
  | .hlt n => n
  | .undefNnn n => n
  | .undefOoo n => n
  | .undefPpp n => n

end Sys2Proof
end

