-- ==== Sys2Proof/WellFormed.lean ====
section
/-! DEFINITION. Which instruction terms a Word can hold: the operand fits the six operand trits
(spec 30_encoding.md R71, R73). Whether an address operand lies in memory is no matter of form: such an
instruction is well formed and faults when it runs (R79). -/

namespace Sys2Proof

/-- The operand-field value lies in −364 to 364 (R73). -/
def Instr.wf (i : Instr) : Bool :=
  decide (-Config.opdMax ≤ i.opnd) && decide (i.opnd ≤ Config.opdMax)

end Sys2Proof
end

