-- ==== Sys2Proof/Decode.lean ====
section
/-! DEFINITION. The decoder and the encoder (spec 30_encoding.md R72 to R75, R79): a Word's opcode and
operand fields, the opcode map, and the Word of an instruction. Last, the host interface's reading of an
instruction written in bits, which the spec itself does not have (log entry 2). -/

namespace Sys2Proof

/-- `opc = val(w[8:6])`, the opcode field as a signed integer (R72). -/
def Word.opcField (w : Word) : Int := w.t8.toInt * 9 + w.t7.toInt * 3 + w.t6.toInt

/-- `opnd = val(w[5:0])`, the operand field as a signed integer (R72). -/
def Word.opndField (w : Word) : Int :=
  w.t5.toInt * 243 + w.t4.toInt * 81 + w.t3.toInt * 27 + w.t2.toInt * 9 + w.t1.toInt * 3 + w.t0.toInt

/-- `decode_instr(w)`: the row of the opcode map that `w[8:6]` selects, with the operand-field value
(R74, R79). Total: the three undefined opcode values give their UNDEF rows (R75). -/
def decode (w : Word) : Instr :=
  match w.t8, w.t7, w.t6 with
  | .P, .P, .O => .mul w.opndField
  | .P, .P, .N => .sub w.opndField
  | .P, .O, .P => .add w.opndField
  | .P, .O, .O => .stx w.opndField
  | .P, .O, .N => .ldx w.opndField
  | .P, .N, .P => .stf w.opndField
  | .P, .N, .O => .ldf w.opndField
  | .P, .N, .N => .str w.opndField
  | .O, .P, .P => .ldr w.opndField
  | .O, .P, .O => .xchg w.opndField
  | .O, .P, .N => .sta w.opndField
  | .O, .O, .P => .lda w.opndField
  | .O, .O, .N => .jmp w.opndField
  | .O, .N, .P => .jz w.opndField
  | .O, .N, .O => .jp w.opndField
  | .O, .N, .N => .jn w.opndField
  | .N, .P, .P => .loop w.opndField
  | .N, .P, .O => .div w.opndField
  | .N, .P, .N => .neg w.opndField
  | .N, .O, .P => .nop w.opndField
  | .N, .O, .O => .sha w.opndField
  | .N, .O, .N => .shd w.opndField
  | .N, .N, .P => .xsr w.opndField
  | .N, .N, .O => .hlt w.opndField
  | .N, .N, .N => .undefNnn w.opndField
  | .O, .O, .O => .undefOoo w.opndField
  | .P, .P, .P => .undefPpp w.opndField

/-- The opcode value of an instruction (R74, R75). -/
def Instr.opc : Instr → Int
  | .mul _ => 12
  | .sub _ => 11
  | .add _ => 10
  | .stx _ => 9
  | .ldx _ => 8
  | .stf _ => 7
  | .ldf _ => 6
  | .str _ => 5
  | .ldr _ => 4
  | .xchg _ => 3
  | .sta _ => 2
  | .lda _ => 1
  | .jmp _ => -1
  | .jz _ => -2
  | .jp _ => -3
  | .jn _ => -4
  | .loop _ => -5
  | .div _ => -6
  | .neg _ => -7
  | .nop _ => -8
  | .sha _ => -9
  | .shd _ => -10
  | .xsr _ => -11
  | .hlt _ => -12
  | .undefNnn _ => -13
  | .undefOoo _ => 0
  | .undefPpp _ => 13

/-- The Word of an instruction: `word(opc * 729 + opnd)` (R73). -/
def encode (i : Instr) : Word := Word.ofInt (i.opc * Config.opdMod + i.opnd)

/-- Whether an instruction is one of the rows that R75 leaves undefined (`Undefined` of R79). -/
def Instr.undefined : Instr → Bool
  | .undefNnn _ => true
  | .undefOoo _ => true
  | .undefPpp _ => true
  | .mul _ => false
  | .sub _ => false
  | .add _ => false
  | .stx _ => false
  | .ldx _ => false
  | .stf _ => false
  | .ldf _ => false
  | .str _ => false
  | .ldr _ => false
  | .xchg _ => false
  | .sta _ => false
  | .lda _ => false
  | .jmp _ => false
  | .jz _ => false
  | .jp _ => false
  | .jn _ => false
  | .loop _ => false
  | .div _ => false
  | .neg _ => false
  | .nop _ => false
  | .sha _ => false
  | .shd _ => false
  | .xsr _ => false
  | .hlt _ => false

/-- Why bits are no instruction. The spec has no bits; this is the host interface's (log entry 2). -/
inductive DecodeReject where
  /-- The bits stand for an integer outside −9841 to 9841, which is no Word. Safe: nothing runs. -/
  | notAWord
deriving DecidableEq, Repr

/-- The integer that `w` stands for when its bits are read as a two's complement number of `nbits` bits,
or of 16 bits where `nbits` is less (log entry 2). -/
def bitsToInt (nbits w : Nat) : Int :=
  let n := max nbits 16
  if w < 2 ^ (n - 1) then (w : Int) else (w : Int) - ((2 ^ n : Nat) : Int)

/-- The Word written in bits, by its integer value as the table's `match` and `word_min` write it, or the
reason there is none (log entry 2). -/
def wordOfBits (nbits w : Nat) : Except DecodeReject Word :=
  let v := bitsToInt nbits w
  if -Config.wordMax ≤ v ∧ v ≤ Config.wordMax then .ok (Word.ofInt v) else .error .notAWord

/-- The decoder on an instruction written in bits: total, rejecting by name what is no Word. -/
def decodeBits (nbits w : Nat) : Except DecodeReject Instr :=
  match wordOfBits nbits w with
  | .ok word => .ok (decode word)
  | .error r => .error r

/-- The instruction the decoder reads from an instruction whose bits are `w` (host interface). -/
def decodeTableWord (nbits w : Nat) : Option Instr :=
  match decodeBits nbits w with
  | .ok i => some i
  | .error _ => none

end Sys2Proof
end

