-- ==== Sys2Proof/Machine/Flags.lean ====
section
/-! DEFINITION. The flag computations: the sign latch `omega` (spec 10_state.md R26), the sticky overflow
flag `V` (R27, 43_arithmetic.md R180) and the run flag `RUN` (R28). -/

namespace Sys2Proof.Machine

/-- The value of `omega` after `S` is written with `w`: the sign of `w` (R26). -/
def signLatch (w : Word) : Trit := w.sign

/-- The value of `V` after a use of the adder that returned the carry trit `c`: set if the carry is not
`O`, else as it was (R27, R180). -/
def stickyOverflow (v : Bool) (c : Trit) : Bool := v || decide (c ≠ .O)

end Sys2Proof.Machine
end

