-- ==== Sys2Proof/Machine/Ops.lean ====
section
/-! DEFINITION. The operations every instruction is built from: reading and writing memory (spec
20_memory.md R52 to R54), writing registers (10_state.md R21 to R28), the advance of `C`
(41_execution_cycle.md R135), raising a fault (60_exceptions.md R283) and the fetch (R133). -/

namespace Sys2Proof.Machine

/-- What executing an instruction answers. -/
abbrev Result := Host.Outcome State Fault Refusal

/-- `raise <kind>`: the step ends at once with that fault; no state is given back because every part of
it is as before the step (R283, R137; log entry 5). There is no trap entry, no handler and no return
(R288, R290). -/
def raise (k : Fault) : Result := .fault k

/-- Whether an integer is the address of a memory cell: 0 to 161 (R51, R52). -/
def validAddress (a : Int) : Bool := decide (0 ≤ a) && decide (a < (Config.memCells : Int))

/-- The Word listed for address `a`, or what an unlisted address reads as. -/
def readCells : List (Nat × Word) → Nat → Word
  | [], _ => Memory.unlisted
  | (b, w) :: rest, a => if b = a then w else readCells rest a

/-- `MemRead(a, 1)`, for an address the caller has checked (R53; log entry 18). -/
def Memory.read (m : Memory) (a : Nat) : Word := readCells m.cells a

/-- The list without an entry for address `a`. -/
def eraseCell : List (Nat × Word) → Nat → List (Nat × Word)
  | [], _ => []
  | (b, w) :: rest, a => if b = a then eraseCell rest a else (b, w) :: eraseCell rest a

/-- The list with an entry for `a` put before the first greater address. -/
def insertCell : List (Nat × Word) → Nat → Word → List (Nat × Word)
  | [], a, w => [(a, w)]
  | (b, v) :: rest, a, w => if a < b then (a, w) :: (b, v) :: rest else (b, v) :: insertCell rest a w

/-- `MemWrite(a, 1, w)`, for an address the caller has checked (R54). Writing what an unlisted address
reads as takes the entry away, which keeps the canonical form (log entry 3). -/
def Memory.write (m : Memory) (a : Nat) (w : Word) : Memory :=
  let rest := eraseCell m.cells a
  if w = Memory.unlisted then ⟨rest⟩ else ⟨insertCell rest a w⟩

/-- The list is canonical from address `lo` on: addresses strictly rising, all below 162, and no entry
equal to what an unlisted address reads as. -/
def cellsWf : Nat → List (Nat × Word) → Bool
  | _, [] => true
  | lo, (a, w) :: rest =>
    decide (lo ≤ a) && decide (a < Config.memCells) && decide (w ≠ Memory.unlisted) && cellsWf (a + 1) rest

/-- Memory is in canonical form (log entry 3). -/
def Memory.wf (m : Memory) : Bool := cellsWf 0 m.cells

/-- The Word in cell `a` of this engine (R53). -/
def State.load (s : State) (a : Nat) : Word := s.mem.read a

/-- Cell `a` of this engine replaced by `w` (R54). -/
def State.store (s : State) (a : Nat) (w : Word) : State := { s with mem := s.mem.write a w }

/-- `S <- w`, which also writes `omega` (R12, R26). -/
def State.setS (s : State) (w : Word) : State := { s with S := w, omega := signLatch w }

/-- `R <- w`; `omega` is not changed (R23). -/
def State.setR (s : State) (w : Word) : State := { s with R := w }

/-- `F <- w`; `omega` is not changed (R24). -/
def State.setF (s : State) (w : Word) : State := { s with F := w }

/-- `C <- w` (R12, R25). -/
def State.setC (s : State) (w : Word) : State := { s with C := w }

/-- `if c != O: V <- 1`, for the carry trit of a use of the adder (R27, R180). -/
def State.noteCarry (s : State) (c : Trit) : State := { s with V := stickyOverflow s.V c }

/-- `RUN <- 0` (R28, R231). -/
def State.halt (s : State) : State := { s with RUN := false }

/-- `C <- word(pc + 1)`, the advance of every instruction that does not jump (R135). At address 161 it
stores 162, which a Word can hold (R25). -/
def State.advance (s : State) : State := s.setC (Word.ofInt (s.C.val + 1))

/-- `C <- word(target)`, a jump taken (R12, R200). -/
def State.jumpTo (s : State) (target : Int) : State := s.setC (Word.ofInt target)

/-- Stage 1 of the cycle: the Word at `C`, or AddressFault if `C` is outside 0 to 161 (R133). -/
def fetch (s : State) : Except Fault Word :=
  match validAddress s.C.val with
  | true => .ok (s.load s.C.val.toNat)
  | false => .error .addressFault

/-- The state with Word `w` in the cell the next step fetches, running, and with `C` at 0 if it was at no
cell: what a one-cell image loaded at `C` would leave in a running engine (log entry 4). -/
def State.withWord (s : State) (w : Word) : State :=
  let at0 := if validAddress s.C.val then s else s.setC Word.zero
  { at0.store at0.C.val.toNat w with RUN := true }

end Sys2Proof.Machine
end

