-- ==== Sys2Proof/Machine/Operands.lean ====
section
/-! DEFINITION. The operand forms: the class of each instruction and the check each class makes before
execution (spec 30_encoding.md R76, R77; 42_data_transfer.md R171). Classes K and Z check nothing, so
their instructions use `opnd`, or ignore it, directly. -/

namespace Sys2Proof

/-- The operand class of an instruction (R76). -/
def Instr.opClass : Instr → OperandClass
  | .mul _ => .A
  | .sub _ => .A
  | .add _ => .A
  | .stx _ => .X
  | .ldx _ => .X
  | .stf _ => .A
  | .ldf _ => .A
  | .str _ => .A
  | .ldr _ => .A
  | .xchg _ => .A
  | .sta _ => .A
  | .lda _ => .A
  | .jmp _ => .J
  | .jz _ => .J
  | .jp _ => .J
  | .jn _ => .J
  | .loop _ => .J
  | .div _ => .A
  | .neg _ => .Z
  | .nop _ => .Z
  | .sha _ => .K
  | .shd _ => .K
  | .xsr _ => .Z
  | .hlt _ => .Z
  | .undefNnn _ => .none
  | .undefOoo _ => .none
  | .undefPpp _ => .none

end Sys2Proof

namespace Sys2Proof.Machine

/-- Class A, direct address: `opnd` must be 0 to 161, else AddressFault before any effect (R76, R136). -/
def direct (opnd : Int) (body : Nat → Result) : Result :=
  match validAddress opnd with
  | true => body opnd.toNat
  | false => raise .addressFault

/-- The effective address of class X: an unbounded sum, which cannot wrap and sets no flag (R171). -/
def effectiveAddress (opnd : Int) (s : State) : Int := opnd + s.F.val

/-- Class X, indexed address: `opnd + val(F)` must be 0 to 161, else AddressFault; `opnd` alone is not
checked (R76, R171). -/
def indexed (opnd : Int) (s : State) (body : Nat → Result) : Result :=
  match validAddress (effectiveAddress opnd s) with
  | true => body (effectiveAddress opnd s).toNat
  | false => raise .addressFault

/-- Class J, jump target: `opnd` must be 0 to 161, else AddressFault whether or not the jump is taken
(R76, R207). -/
def target (opnd : Int) (body : Int → Result) : Result :=
  match validAddress opnd with
  | true => body opnd
  | false => raise .addressFault

end Sys2Proof.Machine
end

