-- ==== Sys2Proof/Machine/Arithmetic.lean ====
section
/-! DEFINITION. The arithmetic instructions (spec 43_arithmetic.md R180 to R186). A sum out of range is
written wrapped and sets `V` (R180); the only fault of execution is DIV by zero (R184). -/

namespace Sys2Proof.Machine

/-- `(s, c) := add(S, w); S <- s; if c != O: V <- 1`, the accumulation ADD and SUB share (R180). -/
def accumulate (w : Word) (s : State) : State :=
  (s.setS (s.S.add w).1).noteCarry (s.S.add w).2

/-- ADD: `S <- S + Memory[opnd]` (R181). -/
def execAdd (opnd : Int) (s : State) : Result :=
  direct opnd fun a => .next (accumulate (s.load a) s).advance

/-- SUB: `S <- S + negate(Memory[opnd])` (R182). -/
def execSub (opnd : Int) (s : State) : Result :=
  direct opnd fun a => .next (accumulate (s.load a).negate s).advance

/-- MUL: `R:S <- S * Memory[opnd]`, exact in 18 trits; `omega` follows the low Word and `V` is not
changed (R183). -/
def execMul (opnd : Int) (s : State) : Result :=
  direct opnd fun a =>
    .next ((s.setR (mulwide s.S (s.load a)).1).setS (mulwide s.S (s.load a)).2).advance

/-- DIV: quotient of `S` by `Memory[opnd]`, rounded toward zero, into `S` and the remainder into `R`; a
zero divisor raises RangeError (R184). -/
def execDiv (opnd : Int) (s : State) : Result :=
  direct opnd fun a =>
    if (s.load a).val = 0 then raise .rangeError
    else
      .next ((s.setR (Word.ofInt (divtrunc s.S.val (s.load a).val).2)).setS
        (Word.ofInt (divtrunc s.S.val (s.load a).val).1)).advance

/-- NEG: `S <- negate(S)`; the operand trits are ignored (R185, R78). -/
def execNeg (_opnd : Int) (s : State) : Result :=
  .next (s.setS s.S.negate).advance

end Sys2Proof.Machine
end

