-- ==== Sys2Proof/Machine/Control.lean ====
section
/-! DEFINITION. The control-flow instructions (spec 44_control_flow.md R200 to R207). A jump writes `C`
and, LOOP apart, nothing else; an illegal target faults whether or not the jump is taken. -/

namespace Sys2Proof.Machine

/-- Jump to `t` where `taken`, else fall through (R200). -/
def jumpIf (taken : Bool) (t : Int) (s : State) : State :=
  if taken then s.jumpTo t else s.advance

/-- JMP: `C <- opnd` (R201). -/
def execJmp (opnd : Int) (s : State) : Result :=
  target opnd fun t => .next (s.jumpTo t)

/-- JZ: jump iff `omega = O` (R202). -/
def execJz (opnd : Int) (s : State) : Result :=
  target opnd fun t => .next (jumpIf (decide (s.omega = .O)) t s)

/-- JP: jump iff `omega = P` (R203). -/
def execJp (opnd : Int) (s : State) : Result :=
  target opnd fun t => .next (jumpIf (decide (s.omega = .P)) t s)

/-- JN: jump iff `omega = N` (R204). -/
def execJn (opnd : Int) (s : State) : Result :=
  target opnd fun t => .next (jumpIf (decide (s.omega = .N)) t s)

/-- `add(F, word(-1))`, the decrement of LOOP with its carry (R205). -/
def decremented (s : State) : Word × Trit := s.F.add (Word.ofInt (-1))

/-- LOOP: decrement `F`, note the carry in `V`, and jump if the new `F` is not zero (R205). -/
def execLoop (opnd : Int) (s : State) : Result :=
  target opnd fun t =>
    .next (jumpIf (decide ((decremented s).1.val ≠ 0)) t
      ((s.setF (decremented s).1).noteCarry (decremented s).2))

end Sys2Proof.Machine
end

