-- ==== Sys2Proof/Machine/Shift.lean ====
section
/-! DEFINITION. The shift instructions (spec 45_shift.md R220 to R222). The count is the operand-field
value; no count is illegal, lost trits are not reported and `V` is not changed. -/

namespace Sys2Proof.Machine

/-- SHA: `S <- shift(S, opnd)` (R221). -/
def execSha (opnd : Int) (s : State) : Result :=
  .next (s.setS (s.S.shift opnd)).advance

/-- SHD: the pair `R:S` shifted as 18 trits; `omega` follows the new low Word (R222). -/
def execShd (opnd : Int) (s : State) : Result :=
  .next ((s.setR (shift18 s.R s.S opnd).1).setS (shift18 s.R s.S opnd).2).advance

end Sys2Proof.Machine
end

