-- ==== Sys2Proof/Machine/System.lean ====
section
/-! DEFINITION. The system instructions (spec 46_system.md R230 to R233) and the three undefined rows of
the opcode table (30_encoding.md R75, 60_exceptions.md R285). -/

namespace Sys2Proof.Machine

/-- HLT: `RUN <- 0`, and `C` advances like for any other instruction (R231). -/
def execHlt (_opnd : Int) (s : State) : Result := .next s.halt.advance

/-- NOP: no state change besides the advance of `C` (R232). -/
def execNop (_opnd : Int) (s : State) : Result := .next s.advance

/-- `opc` −13 is undefined: DecodeError, whatever the operand trits are (R75, R287). -/
def execUndefNnn (_opnd : Int) (_s : State) : Result := raise .decodeError

/-- `opc` 0 is undefined: DecodeError; the reset content of every cell has it (R75). -/
def execUndefOoo (_opnd : Int) (_s : State) : Result := raise .decodeError

/-- `opc` 13 is undefined: DecodeError (R75). -/
def execUndefPpp (_opnd : Int) (_s : State) : Result := raise .decodeError

end Sys2Proof.Machine
end

