-- ==== Sys2Proof/Machine/Transfer.lean ====
section
/-! DEFINITION. The data-transfer instructions (spec 42_data_transfer.md R160 to R171). A transfer copies
one whole Word; `omega` changes exactly when `S` is written. Every value read is the one from before the
step (41_execution_cycle.md R137). -/

namespace Sys2Proof.Machine

/-- LDA: `S <- Memory[opnd]` (R161). -/
def execLda (opnd : Int) (s : State) : Result :=
  direct opnd fun a => .next (s.setS (s.load a)).advance

/-- STA: `Memory[opnd] <- S` (R162). -/
def execSta (opnd : Int) (s : State) : Result :=
  direct opnd fun a => .next (s.store a s.S).advance

/-- XCHG: `S` and `Memory[opnd]` change places in one step (R163). -/
def execXchg (opnd : Int) (s : State) : Result :=
  direct opnd fun a => .next ((s.store a s.S).setS (s.load a)).advance

/-- LDR: `R <- Memory[opnd]` (R164). -/
def execLdr (opnd : Int) (s : State) : Result :=
  direct opnd fun a => .next (s.setR (s.load a)).advance

/-- STR: `Memory[opnd] <- R` (R165). -/
def execStr (opnd : Int) (s : State) : Result :=
  direct opnd fun a => .next (s.store a s.R).advance

/-- LDF: `F <- Memory[opnd]` (R166). -/
def execLdf (opnd : Int) (s : State) : Result :=
  direct opnd fun a => .next (s.setF (s.load a)).advance

/-- STF: `Memory[opnd] <- F` (R167). -/
def execStf (opnd : Int) (s : State) : Result :=
  direct opnd fun a => .next (s.store a s.F).advance

/-- LDX: `S <- Memory[opnd + val(F)]`; `F` is not changed (R168). -/
def execLdx (opnd : Int) (s : State) : Result :=
  indexed opnd s fun a => .next (s.setS (s.load a)).advance

/-- STX: `Memory[opnd + val(F)] <- S` (R169). -/
def execStx (opnd : Int) (s : State) : Result :=
  indexed opnd s fun a => .next (s.store a s.S).advance

/-- XSR: `S` and `R` change places; the operand trits are ignored (R170, R78). -/
def execXsr (_opnd : Int) (s : State) : Result :=
  .next ((s.setS s.R).setR s.S).advance

end Sys2Proof.Machine
end

