-- ==== Sys2Proof/Machine/Dispatch.lean ====
section
/-! DEFINITION. Dispatch: one arm per row of the opcode table, each one direct call of its meaning. -/

namespace Sys2Proof.Machine

/-- Stage 4 of the cycle for a decoded instruction, applied to the state at the start of the step
(spec 41_execution_cycle.md R136). -/
def exec (i : Instr) (s : State) : Host.Outcome State Fault Refusal :=
  match i with
  | .mul n => Sys2Proof.Machine.execMul n s
  | .sub n => Sys2Proof.Machine.execSub n s
  | .add n => Sys2Proof.Machine.execAdd n s
  | .stx n => Sys2Proof.Machine.execStx n s
  | .ldx n => Sys2Proof.Machine.execLdx n s
  | .stf n => Sys2Proof.Machine.execStf n s
  | .ldf n => Sys2Proof.Machine.execLdf n s
  | .str n => Sys2Proof.Machine.execStr n s
  | .ldr n => Sys2Proof.Machine.execLdr n s
  | .xchg n => Sys2Proof.Machine.execXchg n s
  | .sta n => Sys2Proof.Machine.execSta n s
  | .lda n => Sys2Proof.Machine.execLda n s
  | .jmp n => Sys2Proof.Machine.execJmp n s
  | .jz n => Sys2Proof.Machine.execJz n s
  | .jp n => Sys2Proof.Machine.execJp n s
  | .jn n => Sys2Proof.Machine.execJn n s
  | .loop n => Sys2Proof.Machine.execLoop n s
  | .div n => Sys2Proof.Machine.execDiv n s
  | .neg n => Sys2Proof.Machine.execNeg n s
  | .nop n => Sys2Proof.Machine.execNop n s
  | .sha n => Sys2Proof.Machine.execSha n s
  | .shd n => Sys2Proof.Machine.execShd n s
  | .xsr n => Sys2Proof.Machine.execXsr n s
  | .hlt n => Sys2Proof.Machine.execHlt n s
  | .undefNnn n => Sys2Proof.Machine.execUndefNnn n s
  | .undefOoo n => Sys2Proof.Machine.execUndefOoo n s
  | .undefPpp n => Sys2Proof.Machine.execUndefPpp n s

end Sys2Proof.Machine
end

