-- ==== Sys2Proof/Machine/Cycle.lean ====
section
/-! DEFINITION. The fetch-decode-execute cycle (spec 41_execution_cycle.md R131 to R137). -/

namespace Sys2Proof.Machine

/-- Stages 1 to 4 of a running engine: fetch (R133), decode (R134), advance and execute (R135, R136). The
first fault in that order is the one reported (60_exceptions.md R287). -/
def fetchDecodeExecute (s : State) : Result :=
  match fetch s with
  | .error k => raise k
  | .ok w => exec (decode w) s

/-- The whole cycle: a halted engine does nothing, whatever `C` holds (R132; log entry 6). A fault answers
its kind and stands for the unchanged state (R283; log entry 5). -/
def cycle (s : State) : Result :=
  match s.RUN with
  | false => .next s
  | true => fetchDecodeExecute s

end Sys2Proof.Machine
end

