-- ==== Sys2Proof/Machine/Step.lean ====
section
/-! DEFINITION. One step of the engine (spec 41_execution_cycle.md R131), and the host interface's way of
placing an instruction where the next step fetches (log entry 4). -/

namespace Sys2Proof.Machine

/-- `step()` (R131). The status the host sees is `engineStep`'s (Machine/Engine.lean). -/
def step (s : State) : Host.Outcome State Fault Refusal := cycle s

/-- The state with the instruction of these bits where the next step fetches it; bits that stand for no
Word change nothing (log entries 2 and 4). -/
def State.withFetchWord (s : State) (nbits w : Nat) : State :=
  match wordOfBits nbits w with
  | .ok word => s.withWord word
  | .error _ => s

end Sys2Proof.Machine
end

