-- ==== Sys2Proof/Machine/Engine.lean ====
section
/-! DEFINITION. The engine's operations as the host sees them: the step with its status, bounded runs,
loading, snapshots and the trace (spec 41_execution_cycle.md R130 to R144). -/

namespace Sys2Proof.Machine

/-- The five statuses of a step (R131, R138). -/
inductive Status where
  | continuing
  | halted
  | fault (k : Fault)
deriving DecidableEq, Repr

/-- `step()` with its status and the state it leaves: a halted engine answers `Halted` and stays (R132),
a fault leaves every part of the state as it was (R137, R283), a completed step answers `Halted` exactly
if `RUN` is now clear (R138). No instruction is refused (log entry 17). -/
def engineStep (s : State) : Status × State :=
  match s.RUN with
  | false => (.halted, s)
  | true =>
    match step s with
    | .next t => (if t.RUN then .continuing else .halted, t)
    | .fault k => (.fault k, s)
    | .refused _ => (.fault .decodeError, s)

/-- The result of a step: the status and the value of `V` after it (R139). -/
structure StepReport where
  status : Status
  overflow : Bool
deriving DecidableEq, Repr

/-- What the host learns from a step (R139). -/
def stepReport (s : State) : StepReport :=
  { status := (engineStep s).1, overflow := (engineStep s).2.V }

/-- How a bounded run ends (R140, R144). -/
inductive RunStatus where
  | halted
  | fault (k : Fault)
  | budgetExceeded
deriving DecidableEq, Repr

/-- `run(max_steps)`: step until halted, faulted or out of budget; a halted engine answers `Halted`
whatever the bound (R140). -/
def run (maxSteps : Nat) (s : State) : RunStatus × State :=
  match s.RUN with
  | false => (.halted, s)
  | true =>
    match maxSteps with
    | 0 => (.budgetExceeded, s)
    | n + 1 =>
      match engineStep s with
      | (.fault k, t) => (.fault k, t)
      | (.halted, t) => (.halted, t)
      | (.continuing, t) => run n t

/-- A program image: a finite mapping from addresses to Words, the label addresses for diagnostics, and
the entry address (R141, 47_assembler.md R261; log entry 12). -/
structure Image where
  cells : List (Int × Word)
  labels : List (List Char × Int)
  entry : Int
deriving DecidableEq, Repr

/-- The addresses of a list of image cells are strictly rising from `lo` on. -/
def risingFrom : Int → List (Int × Word) → Bool
  | _, [] => true
  | lo, (a, _) :: rest => decide (lo ≤ a) && risingFrom (a + 1) rest

/-- The image names each address once, in rising order, and every address and the entry are those of
memory cells. -/
def Image.wf (img : Image) : Bool :=
  risingFrom 0 img.cells && img.cells.all (fun c => validAddress c.1) && validAddress img.entry

/-- Every address of the image, and its entry, is the address of a cell (R141). -/
def Image.loadable (img : Image) : Bool :=
  img.cells.all (fun c => validAddress c.1) && validAddress img.entry

/-- The Words of an image copied into memory, in the order listed (R141; log entry 12). -/
def loadCells : List (Int × Word) → Memory → Memory
  | [], m => m
  | (a, w) :: rest, m => loadCells rest (m.write a.toNat w)

/-- `load_image(image)`: copies the image's cells, sets `C` to its entry and changes nothing else; an
address or entry outside 0 to 161 is refused with AddressFault and nothing changes (R141). -/
def loadImage (img : Image) (s : State) : Except Fault State :=
  match img.loadable with
  | true => .ok { s with mem := loadCells img.cells s.mem, C := Word.ofInt img.entry }
  | false => .error .addressFault

/-- A read-only copy of everything the host may look at, all 162 cells included (10_state.md R36). -/
structure Snapshot where
  S : Word
  R : Word
  F : Word
  C : Word
  omega : Trit
  V : Bool
  RUN : Bool
  cells : List Word
deriving DecidableEq, Repr

/-- The snapshot of a state between two steps; taking it changes nothing (10_state.md R36). -/
def snapshot (s : State) : Snapshot :=
  { S := s.S, R := s.R, F := s.F, C := s.C, omega := s.omega, V := s.V, RUN := s.RUN,
    cells := (List.range Config.memCells).map s.load }

/-- What the trace callback is given: (pre-state, instruction decoded, post-state) (R142). -/
structure TraceRecord where
  pre : State
  instr : Instr
  post : State
deriving DecidableEq, Repr

/-- The trace of one step: one record for a completed step, HLT included, and none for a faulted step or
the no-op step of a halted engine (R142; log entry 20). -/
def stepTrace (s : State) : List TraceRecord :=
  match s.RUN, fetch s, step s with
  | true, .ok w, .next t => [{ pre := s, instr := decode w, post := t }]
  | _, _, _ => []

/-- The trace records of a bounded run, in order (R140, R142). -/
def runTrace (maxSteps : Nat) (s : State) : List TraceRecord :=
  match maxSteps with
  | 0 => []
  | n + 1 =>
    match engineStep s with
    | (.continuing, t) => stepTrace s ++ runTrace n t
    | _ => stepTrace s

end Sys2Proof.Machine
end

