-- ==== Sys2Proof/Machine/Assembler.lean ====
section
/-! DEFINITION. The two-pass assembler: a pure function from source text to a program image or exactly one
error (spec 47_assembler.md R240 to R266). Text is a list of characters (log entry 14). -/

namespace Sys2Proof.Machine

/-- The errors of the assembler (R259). `badSyntax` is the spec's `Syntax`. -/
inductive AsmErrorKind where
  | unknownMnemonic
  | duplicateLabel
  | addressCollision
  | undefinedLabel
  | rangeError
  | badSyntax
  | addressOutOfRange
deriving DecidableEq, Repr

/-- An error report: the kind, the line number and the line's text (R259). -/
structure AsmError where
  kind : AsmErrorKind
  line : Nat
  text : List Char
deriving DecidableEq, Repr

/-- A source line with its number, counted from 1 (R241). -/
structure SourceLine where
  number : Nat
  text : List Char
deriving DecidableEq, Repr

/-- The text cut at each character that `p` picks; the pieces hold no such character. -/
def splitAll (p : Char → Bool) : List Char → List (List Char)
  | [] => [[]]
  | c :: cs =>
    if p c then [] :: splitAll p cs
    else
      match splitAll p cs with
      | [] => [[c]]
      | l :: ls => (c :: l) :: ls

/-- A line without the CR that stood before its LF (R241). -/
def dropCr (l : List Char) : List Char :=
  if l.getLast? = some '\r' then l.dropLast else l

/-- `dropCr` on every line that an LF ended, which is every piece but the last. -/
def dropCrs : List (List Char) → List (List Char)
  | [] => []
  | [l] => [l]
  | l :: l' :: ls => dropCr l :: dropCrs (l' :: ls)

/-- Lines numbered from `n` on. -/
def numberFrom : Nat → List (List Char) → List SourceLine
  | _, [] => []
  | n, l :: ls => { number := n, text := l } :: numberFrom (n + 1) ls

/-- The numbered lines of a source text (R241). -/
def sourceLines (src : List Char) : List SourceLine :=
  numberFrom 1 (dropCrs (splitAll (fun c => decide (c = '\n')) src))

/-- A line without its comment: everything before the first `;` (R241). -/
def stripComment (l : List Char) : List Char := l.takeWhile (fun c => decide (c ≠ ';'))

/-- The tokens of a line: the pieces between runs of spaces and tabs, comment removed (R241). -/
def tokens (l : List Char) : List (List Char) :=
  (splitAll (fun c => decide (c = ' ') || decide (c = '\t')) (stripComment l)).filter
    (fun t => !t.isEmpty)

/-- A character that may begin a name: a letter or `_` (R243). -/
def nameStart (c : Char) : Bool := c.isAlpha || decide (c = '_')

/-- A character that may follow in a name: a letter, a digit or `_` (R243). -/
def nameRest (c : Char) : Bool := c.isAlpha || c.isDigit || decide (c = '_')

/-- A label name: a letter or `_`, then letters, digits or `_` (R243). -/
def isName : List Char → Bool
  | [] => false
  | c :: cs => nameStart c && cs.all nameRest

/-- The value of a run of decimal digits, added to `acc` as the digits before it; none if another
character occurs (R245). -/
def digitsValue : Nat → List Char → Option Nat
  | acc, [] => some acc
  | acc, c :: cs => if c.isDigit then digitsValue (acc * 10 + (c.toNat - 48)) cs else none

/-- One or more decimal digits as a number (R245). -/
def parseDigits : List Char → Option Nat
  | [] => none
  | c :: cs => digitsValue 0 (c :: cs)

/-- An integer literal: an optional sign and one or more decimal digits (R245). -/
def parseLiteral : List Char → Option Int
  | '+' :: cs => (parseDigits cs).map fun n => (n : Int)
  | '-' :: cs => (parseDigits cs).map fun n => -(n : Int)
  | cs => (parseDigits cs).map fun n => (n : Int)

/-- An operand as written: a literal or a label reference (R242, R246). -/
inductive AsmOperand where
  | literal (n : Int)
  | label (name : List Char)
deriving DecidableEq, Repr

/-- The operand a token stands for; none if it is neither a literal nor a name (R245, R246). -/
def parseOperand (t : List Char) : Option AsmOperand :=
  match parseLiteral t with
  | some n => some (.literal n)
  | none => if isName t then some (.label t) else none

/-- The opcode value and operand class of each mnemonic (R244, 30_encoding.md R74, R76). -/
def mnemonicTable : List (List Char × Int × OperandClass) :=
  [(['L', 'D', 'A'], 1, .A), (['S', 'T', 'A'], 2, .A), (['X', 'C', 'H', 'G'], 3, .A),
   (['L', 'D', 'R'], 4, .A), (['S', 'T', 'R'], 5, .A), (['L', 'D', 'F'], 6, .A),
   (['S', 'T', 'F'], 7, .A), (['L', 'D', 'X'], 8, .X), (['S', 'T', 'X'], 9, .X)] ++
  [(['A', 'D', 'D'], 10, .A), (['S', 'U', 'B'], 11, .A), (['M', 'U', 'L'], 12, .A),
   (['D', 'I', 'V'], -6, .A), (['N', 'E', 'G'], -7, .Z), (['J', 'M', 'P'], -1, .J),
   (['J', 'Z'], -2, .J), (['J', 'P'], -3, .J), (['J', 'N'], -4, .J)] ++
  [(['L', 'O', 'O', 'P'], -5, .J), (['S', 'H', 'A'], -9, .K), (['S', 'H', 'D'], -10, .K),
   (['X', 'S', 'R'], -11, .Z), (['N', 'O', 'P'], -8, .Z), (['H', 'L', 'T'], -12, .Z)]

/-- The mnemonic an instruction is written with; none for the undefined opcode values, which have no source
spelling (R244). -/
def mnemonicOf : Instr → Option (List Char)
  | .mul _ => some ['M', 'U', 'L']
  | .sub _ => some ['S', 'U', 'B']
  | .add _ => some ['A', 'D', 'D']
  | .stx _ => some ['S', 'T', 'X']
  | .ldx _ => some ['L', 'D', 'X']
  | .stf _ => some ['S', 'T', 'F']
  | .ldf _ => some ['L', 'D', 'F']
  | .str _ => some ['S', 'T', 'R']
  | .ldr _ => some ['L', 'D', 'R']
  | .xchg _ => some ['X', 'C', 'H', 'G']
  | .sta _ => some ['S', 'T', 'A']
  | .lda _ => some ['L', 'D', 'A']
  | .jmp _ => some ['J', 'M', 'P']
  | .jz _ => some ['J', 'Z']
  | .jp _ => some ['J', 'P']
  | .jn _ => some ['J', 'N']
  | .loop _ => some ['L', 'O', 'O', 'P']
  | .div _ => some ['D', 'I', 'V']
  | .neg _ => some ['N', 'E', 'G']
  | .nop _ => some ['N', 'O', 'P']
  | .sha _ => some ['S', 'H', 'A']
  | .shd _ => some ['S', 'H', 'D']
  | .xsr _ => some ['X', 'S', 'R']
  | .hlt _ => some ['H', 'L', 'T']
  | .undefNnn _ => none
  | .undefOoo _ => none
  | .undefPpp _ => none

/-- The row of the mnemonic table a token names, letter for letter (R244). -/
def lookupMnemonic (t : List Char) : List (List Char × Int × OperandClass) → Option (Int × OperandClass)
  | [] => none
  | (name, row) :: rest => if name = t then some row else lookupMnemonic t rest

/-- The one Word a line emits: a literal (DAT) or an instruction with its opcode value (R251, R252). -/
inductive Item where
  | data (value : Int)
  | instruction (opc : Int) (operand : AsmOperand)
deriving DecidableEq, Repr

/-- What a statement does in pass 1 (R248). -/
inductive Action where
  | nothing
  | org (n : Int)
  | emit (item : Item)
deriving DecidableEq, Repr

/-- The operand of DAT and ORG: an integer literal and nothing else (R247). -/
def literalOnly : Option (List Char) → Except AsmErrorKind Int
  | some t =>
    match parseLiteral t with
    | some n => .ok n
    | none => .error .badSyntax
  | none => .error .badSyntax

/-- The operand of an instruction: needed but for class Z, where it stands for 0 when left out (R247,
R252). -/
def instructionOperand (cls : OperandClass) : Option (List Char) → Except AsmErrorKind AsmOperand
  | some t =>
    match parseOperand t with
    | some op => .ok op
    | none => .error .badSyntax
  | none => if cls = .Z then .ok (.literal 0) else .error .badSyntax

/-- Mnemonic, then operand presence and form (R244, R247, the order of R260). -/
def parseAction (mnemonic : List Char) (operand : Option (List Char)) : Except AsmErrorKind Action :=
  if mnemonic = ['D', 'A', 'T'] then (literalOnly operand).map fun n => .emit (.data n)
  else if mnemonic = ['O', 'R', 'G'] then (literalOnly operand).map .org
  else
    match lookupMnemonic mnemonic mnemonicTable with
    | none => .error .unknownMnemonic
    | some (opc, cls) => (instructionOperand cls operand).map fun op => .emit (.instruction opc op)

/-- Whether a token ends in `:`, as a label definition does (R242). -/
def endsInColon (t : List Char) : Bool := decide (t.getLast? = some ':')

/-- The label definition at the start of a line, if any, and the tokens after it (R242, R243). -/
def splitLabel : List (List Char) → Except AsmErrorKind (Option (List Char) × List (List Char))
  | [] => .ok (none, [])
  | t :: rest =>
    if endsInColon t then
      if isName t.dropLast then .ok (some t.dropLast, rest) else .error .badSyntax
    else .ok (none, t :: rest)

/-- What is left of a line after its label: nothing, or a mnemonic with at most one operand. More tokens,
or a second label definition, are a Syntax error (R242). Two points that R242 leaves open are the model's
choice (log entry 15): a second label definition is a token ending in `:` in the mnemonic's place, found
with the token count; such a token in the operand's place is an operand that is no name, found after the
mnemonic is checked, so that an unknown mnemonic before it is the error reported. -/
def parseRest : List (List Char) → Except AsmErrorKind Action
  | [] => .ok .nothing
  | [m] => if endsInColon m then .error .badSyntax else parseAction m none
  | [m, o] => if endsInColon m then .error .badSyntax else parseAction m (some o)
  | _ :: _ :: _ :: _ => .error .badSyntax

/-- One emitted Word of pass 1: its address, what it is, and the line it came from (R248). -/
structure Emission where
  addr : Int
  item : Item
  line : SourceLine
deriving DecidableEq, Repr

/-- The state of pass 1: the location counter, the labels bound and the emissions so far (R248). -/
structure Pass1 where
  counter : Int
  labels : List (List Char × Int)
  emissions : List Emission
deriving DecidableEq, Repr

/-- Pass 1 before the first line: "a location counter starting at 0" (R248). -/
def Pass1.start : Pass1 := { counter := 0, labels := [], emissions := [] }

/-- The address a label is bound to (R246). -/
def lookupLabel (name : List Char) : List (List Char × Int) → Option Int
  | [] => none
  | (n, a) :: rest => if n = name then some a else lookupLabel name rest

/-- Binds a label to the counter before the rest of the line acts (R249). -/
def Pass1.bindLabel (p : Pass1) : Option (List Char) → Except AsmErrorKind Pass1
  | none => .ok p
  | some name =>
    match lookupLabel name p.labels with
    | some _ => .error .duplicateLabel
    | none => .ok { p with labels := p.labels ++ [(name, p.counter)] }

/-- Emits one Word at the counter, after the address and collision checks, and advances the counter
(R252, R253, R256). -/
def Pass1.emitItem (p : Pass1) (item : Item) (line : SourceLine) : Except AsmErrorKind Pass1 :=
  match validAddress p.counter, p.emissions.any (fun e => decide (e.addr = p.counter)) with
  | false, _ => .error .addressOutOfRange
  | true, true => .error .addressCollision
  | true, false =>
    .ok { p with
      counter := p.counter + 1,
      emissions := p.emissions ++ [{ addr := p.counter, item := item, line := line }] }

/-- Pass 1 performing a statement (R248, R250). -/
def Pass1.perform (p : Pass1) (line : SourceLine) : Action → Except AsmErrorKind Pass1
  | .nothing => .ok p
  | .org n => .ok { p with counter := n }
  | .emit item => p.emitItem item line

/-- Pass 1 on the tokens of one line, its checks in the order of R260: label syntax, label binding, token
count, mnemonic, operand presence and form, address range, collision. -/
def Pass1.statement (p : Pass1) (line : SourceLine) (ts : List (List Char)) : Except AsmErrorKind Pass1 :=
  match splitLabel ts with
  | .error e => .error e
  | .ok (label, rest) =>
    match p.bindLabel label with
    | .error e => .error e
    | .ok bound =>
      match parseRest rest with
      | .error e => .error e
      | .ok action => bound.perform line action

/-- The report of an error of a line (R259). -/
def reportAt {α : Type} (line : SourceLine) : Except AsmErrorKind α → Except AsmError α
  | .ok x => .ok x
  | .error k => .error { kind := k, line := line.number, text := line.text }

/-- Pass 1 over the lines in order, up to the first error (R248, R260). A line without tokens produces
nothing (R241). -/
def pass1 : List SourceLine → Pass1 → Except AsmError Pass1
  | [], p => .ok p
  | line :: rest, p =>
    match reportAt line (p.statement line (tokens line.text)) with
    | .error e => .error e
    | .ok q => pass1 rest q

/-- The value of an operand: a literal's own, a label's address (R255). -/
def operandValue (labels : List (List Char × Int)) : AsmOperand → Except AsmErrorKind Int
  | .literal n => .ok n
  | .label name =>
    match lookupLabel name labels with
    | some a => .ok a
    | none => .error .undefinedLabel

/-- The Word of an emitted item (R257), or the range error of R258. -/
def itemWord (labels : List (List Char × Int)) : Item → Except AsmErrorKind Word
  | .data v =>
    match Word.encode v with
    | .ok w => .ok w
    | .error _ => .error .rangeError
  | .instruction opc op =>
    match operandValue labels op with
    | .error e => .error e
    | .ok v =>
      if -Config.opdMax ≤ v ∧ v ≤ Config.opdMax then .ok (Word.ofInt (opc * Config.opdMod + v))
      else .error .rangeError

/-- Image cells with `(a, w)` put before the first greater address. -/
def insertImageCell (a : Int) (w : Word) : List (Int × Word) → List (Int × Word)
  | [] => [(a, w)]
  | (b, v) :: rest => if a < b then (a, w) :: (b, v) :: rest else (b, v) :: insertImageCell a w rest

/-- Pass 2: every emission of pass 1 resolved to its Word, up to the first error; the cells come out in
rising order (R254, R261; log entry 16). -/
def pass2 (labels : List (List Char × Int)) : List Emission → Except AsmError (List (Int × Word))
  | [] => .ok []
  | e :: rest =>
    match reportAt e.line (itemWord labels e.item) with
    | .error err => .error err
    | .ok w =>
      match pass2 labels rest with
      | .error err => .error err
      | .ok cells => .ok (insertImageCell e.addr w cells)

/-- The address of the first instruction line in source order, or 0 if there is none (R262). -/
def entryOf : List Emission → Int
  | [] => 0
  | e :: rest =>
    match e.item with
    | .instruction _ _ => e.addr
    | .data _ => entryOf rest

/-- `assemble(source_text)`: all of pass 1, then all of pass 2; an image or the first error met (R240,
R260, R261). -/
def assemble (src : List Char) : Except AsmError Image :=
  match pass1 (sourceLines src) Pass1.start with
  | .error e => .error e
  | .ok p =>
    match pass2 p.labels p.emissions with
    | .error e => .error e
    | .ok cells => .ok { cells := cells, labels := p.labels, entry := entryOf p.emissions }

/-- `assemble` on a string (log entry 14). -/
def assembleText (src : String) : Except AsmError Image := assemble src.toList

end Sys2Proof.Machine
end

