-- ==== Sys2Proof/Machine/Controller.lean ====
section
/-! DEFINITION. The Execution Controller: a session over one engine with breakpoints and a stopping policy
(spec 60_exceptions.md R300 to R308). Its state is visible to no instruction (10_state.md R32; log entry
11). -/

namespace Sys2Proof.Machine

/-- The session states (R301). -/
inductive Session where
  | ready
  | running
  | stoppedAtBreakpoint (addr : Int)
  | halted
  | faulted (k : Fault)
deriving DecidableEq, Repr

/-- A session over one engine (R300). The breakpoint set is a list of integers, strictly rising (R302; log
entry 21). -/
structure Controller where
  engine : State
  breakpoints : List Int
  session : Session
deriving DecidableEq, Repr

/-- A new session over a fresh engine (R301, R320). -/
def Controller.fresh : Controller := { engine := State.reset, breakpoints := [], session := .ready }

/-- A set of integers with `a` added, kept strictly rising. -/
def insertAddr (a : Int) : List Int → List Int
  | [] => [a]
  | b :: rest => if a < b then a :: b :: rest else if a = b then b :: rest else b :: insertAddr a rest

/-- `set_breakpoint(addr)`; any integer may be in the set (R302). -/
def Controller.setBreakpoint (c : Controller) (addr : Int) : Controller :=
  { c with breakpoints := insertAddr addr c.breakpoints }

/-- `clear_breakpoint(addr)` (R302). -/
def Controller.clearBreakpoint (c : Controller) (addr : Int) : Controller :=
  { c with breakpoints := c.breakpoints.filter (fun b => decide (b ≠ addr)) }

/-- `reset()`: a fresh engine and a Ready session; the breakpoint set stays (R320). -/
def Controller.reset (c : Controller) : Controller :=
  { c with engine := State.reset, session := .ready }

/-- The session state of an engine at rest: Halted if `RUN` is clear, else Ready (R301). -/
def restingSession (s : State) : Session := if s.RUN then .ready else .halted

/-- `load_image` through the controller: the session returns to Ready, or Halted if `RUN` is still clear
(R301). A refused load changes nothing (R141; log entry 13). -/
def Controller.loadImage (c : Controller) (img : Image) : Except Fault Controller :=
  match Sys2Proof.Machine.loadImage img c.engine with
  | .ok s => .ok { c with engine := s, session := restingSession s }
  | .error k => .error k

/-- The session state that a step's status leaves (R304). -/
def sessionAfter : Status → Session
  | .continuing => .ready
  | .halted => .halted
  | .fault k => .faulted k

/-- The controller's `step()`: one step of the engine, ignoring breakpoints (R304). -/
def Controller.step (c : Controller) : Status × Controller :=
  ((engineStep c.engine).1,
    { c with engine := (engineStep c.engine).2, session := sessionAfter (engineStep c.engine).1 })

/-- How a controlled run ends (R303). -/
inductive ControlStatus where
  | halted
  | breakpointHit (addr : Int)
  | budgetExceeded
  | fault (k : Fault)
deriving DecidableEq, Repr

/-- Whether the breakpoint test of R303 stops the run: it is not left out (`skip`, R305), and `C` is in the
set. Any integer may be in the set but only 0 to 161 can match (R302; log entry 22). -/
def Controller.stopsHere (skip : Bool) (c : Controller) : Bool :=
  !skip && validAddress c.engine.C.val && decide (c.engine.C.val ∈ c.breakpoints)

/-- The loop of R303 with `n` steps of budget left; `skip` says that the first breakpoint test is left
out (R305). -/
def Controller.runLoop (n : Nat) (skip : Bool) (c : Controller) : ControlStatus × Controller :=
  match c.engine.RUN, c.stopsHere skip with
  | false, _ => (.halted, { c with session := .halted })
  | true, true =>
    (.breakpointHit c.engine.C.val, { c with session := .stoppedAtBreakpoint c.engine.C.val })
  | true, false =>
    match n with
    | 0 => (.budgetExceeded, { c with session := .ready })
    | m + 1 =>
      match engineStep c.engine with
      | (.fault k, t) => (.fault k, { c with engine := t, session := .faulted k })
      | (.halted, t) => (.halted, { c with engine := t, session := .halted })
      | (.continuing, t) => Controller.runLoop m false { c with engine := t }

/-- Whether a run call leaves its first breakpoint test out: exactly when the session is
Stopped-at-breakpoint at the current `C` (R305). -/
def Controller.resumes (c : Controller) : Bool :=
  decide (c.session = .stoppedAtBreakpoint c.engine.C.val)

/-- `run_until_halt_or_breakpoint(max_steps)` (R303, R305); inside the call the session is Running
(R301). -/
def Controller.runUntil (c : Controller) (maxSteps : Nat) : ControlStatus × Controller :=
  Controller.runLoop maxSteps c.resumes { c with session := .running }

/-- A snapshot through the controller: the engine's (R306). -/
def Controller.snapshot (c : Controller) : Snapshot := Sys2Proof.Machine.snapshot c.engine

/-- What the trace callback is given in the controller's `step()`: the engine's record of that step
(R300, R306). -/
def Controller.stepTrace (c : Controller) : List TraceRecord := Sys2Proof.Machine.stepTrace c.engine

/-- What the trace callback is given in the loop of R303, in order: one record for each completed step of
the engine, up to the end of the run (R306; log entry 20). -/
def Controller.traceLoop (n : Nat) (skip : Bool) (c : Controller) : List TraceRecord :=
  match c.engine.RUN, c.stopsHere skip with
  | false, _ => []
  | true, true => []
  | true, false =>
    match n with
    | 0 => []
    | m + 1 =>
      match engineStep c.engine with
      | (.fault _, _) => c.stepTrace
      | (.halted, _) => c.stepTrace
      | (.continuing, t) => c.stepTrace ++ Controller.traceLoop m false { c with engine := t }

/-- The trace records of `run_until_halt_or_breakpoint(max_steps)`, none for a step not made because of a
breakpoint (R300, R306). -/
def Controller.runTrace (c : Controller) (maxSteps : Nat) : List TraceRecord :=
  Controller.traceLoop maxSteps c.resumes { c with session := .running }

end Sys2Proof.Machine
end

