-- ==== Sys2Proof/Safety.lean ====
section
/-! DEFINITION. What a good state and a safe run are, in the terms the statements use: the invariant of
the machine, the states a host can bring an engine to, and which fault a step raises (spec
60_exceptions.md R281, R287). -/

namespace Sys2Proof.Machine

/-- What holds between any two steps: memory in canonical form (log entry 3), the latch the sign of `S`
(10_state.md R26), and `C` in 0 to 162 (R25). -/
structure Inv (s : State) : Prop where
  /-- Memory is in canonical form. -/
  memory : s.mem.wf = true
  /-- `omega = sign(S)` (R26). -/
  latch : s.omega = s.S.sign
  /-- `C` is not negative (R25). -/
  counterLow : 0 ≤ s.C.val
  /-- `C` is at most 162, the value after falling through from address 161 (R25). -/
  counterHigh : s.C.val ≤ 162

/-- The states that the operations of the host lead to: reset, steps and loads (41_execution_cycle.md
R130). -/
inductive Reachable : State → Prop where
  | reset : Reachable State.reset
  | step {s t : State} : Reachable s → step s = .next t → Reachable t
  | load {s t : State} {img : Image} : Reachable s → loadImage img s = .ok t → Reachable t

/-- The fault of an address outside 0 to 161, and none for one inside (R284). -/
def addressCheck (a : Int) : Option Fault :=
  match validAddress a with
  | true => none
  | false => some .addressFault

/-- The fault that the check of an instruction's operand class raises, if any (30_encoding.md R76). -/
def operandFault (i : Instr) (s : State) : Option Fault :=
  match i.opClass with
  | .A => addressCheck i.opnd
  | .J => addressCheck i.opnd
  | .X => addressCheck (effectiveAddress i.opnd s)
  | .K => none
  | .Z => none
  | .none => some .decodeError

/-- Whether an instruction is a DIV whose divisor Word is zero, the one fault of execution (R281). -/
def dividesByZero (s : State) : Instr → Bool
  | .div n => decide ((s.load n.toNat).val = 0)
  | _ => false

/-- The fault a step of this state raises, read off the table of causes in the order of R287: `C`, the
opcode, the operand, the divisor; none for a halted engine. -/
def faultOf (s : State) : Option Fault :=
  match s.RUN, addressCheck s.C.val with
  | false, _ => none
  | true, some k => some k
  | true, none =>
    match operandFault (decode (s.load s.C.val.toNat)) s,
      dividesByZero s (decode (s.load s.C.val.toNat)) with
    | some k, _ => some k
    | none, true => some .rangeError
    | none, false => none

/-- A run of at most `n` steps that ends in no fault. -/
def FaultFree (n : Nat) (s : State) : Prop := ∀ k, (run n s).1 ≠ .fault k

end Sys2Proof.Machine
end

