-- ==== Sys2Proof/Certificates/Slice0/Obligations.lean ====
section
/-! DEFINITION. The statements for the provers, in the order of OBLIGATIONS.json. Where a statement rests
on a decision of spec/92_eei_decisions.md or on a choice of this model, its docstring names it. -/

open Sys2Proof Sys2Proof.Machine

/-! ### Encoding -/

/-- Decoding the Word of a well-formed instruction gives that instruction back, every operand value
included (30_encoding.md section 1, which marks it derived; the layout is decision D2, the map D3). -/
def Obligations.DecodeAfterEncodeIsIdentity : Prop :=
  ∀ i : Instr, i.wf = true → decode (encode i) = i

/-- Every Word decodes to a well-formed instruction whose Word it is: no two Words share an instruction
and no trit is dropped (30_encoding.md section 1, derived; that the undefined opcode values and the
ignored trits of class Z stay visible in the decoded term is this model's choice, log entries 7 and 8). -/
def Obligations.EncodeAfterDecodeIsIdentity : Prop :=
  ∀ w : Word, (decode w).wf = true ∧ encode (decode w) = w

/-- One Word of each family, written out trit by trit, decodes to the instruction it stands for
(95_test_vectors.md section 2.5 and part 3). -/
def Obligations.WrittenOutWordsDecode : Prop :=
  decode ⟨.O, .O, .P, .O, .O, .O, .O, .P, .P⟩ = .lda 4 ∧
  decode ⟨.P, .O, .P, .O, .O, .O, .P, .N, .N⟩ = .add 5 ∧
  decode ⟨.O, .N, .P, .O, .O, .O, .P, .O, .P⟩ = .jz 10 ∧
  decode ⟨.N, .O, .N, .O, .O, .O, .O, .O, .N⟩ = .shd (-1) ∧
  decode ⟨.N, .O, .P, .O, .O, .O, .O, .O, .O⟩ = .nop 0 ∧
  decode ⟨.P, .P, .P, .N, .N, .N, .N, .N, .N⟩ = .undefPpp (-364)

/-- The Words that decode to no defined instruction are those of three ranges of values (30_encoding.md
section 2; decision D4). -/
def Obligations.UndefinedWordsAreThreeRanges : Prop :=
  ∀ w : Word, (decode w).undefined = true ↔
    (-9841 ≤ w.val ∧ w.val ≤ -9113) ∨ (-364 ≤ w.val ∧ w.val ≤ 364) ∨ (9113 ≤ w.val ∧ w.val ≤ 9841)

/-! ### The converter and the ALU -/

/-- R103: `encode` and `decode` (here `Word.val`) are mutually inverse. -/
def Obligations.ConverterRoundTrips : Prop :=
  (∀ n : Int, -9841 ≤ n → n ≤ 9841 → ∃ w, Word.encode n = .ok w ∧ w.val = n) ∧
  (∀ w : Word, Word.encode w.val = .ok w)

/-- R101: `encode` gives the unique Word of value `n`, by its balanced digits, and RangeError outside
−9841 to 9841. -/
def Obligations.EncodeGivesUniqueWordOrRangeError : Prop :=
  (∀ n : Int, -9841 ≤ n ∧ n ≤ 9841 →
    ∃ w, Word.encode n = .ok w ∧ w.val = n ∧ ∀ v : Word, v.val = n → v = w) ∧
  (∀ n : Int, n < -9841 ∨ 9841 < n → Word.encode n = .error .rangeError) ∧
  Word.encode 42 = .ok ⟨.O, .O, .O, .O, .P, .N, .N, .N, .O⟩ ∧
  Word.encode 9841 = .ok ⟨.P, .P, .P, .P, .P, .P, .P, .P, .P⟩ ∧
  Word.encode (-9841) = .ok ⟨.N, .N, .N, .N, .N, .N, .N, .N, .N⟩ ∧
  Word.encode 0 = .ok Word.zero

/-- The law of the adder: value and carry together are the exact sum, the Word is the sum wrapped into
range, the carry is `O` exactly when the sum is in range, and the order of the operands does not matter
(40_numeral_alu.md section 3, which marks it derived). -/
def Obligations.AdderIsExactWithItsCarry : Prop :=
  ∀ v w : Word,
    v.val + w.val = (v.add w).1.val + 19683 * (v.add w).2.toInt ∧
    (v.add w).1.val = bmod (v.val + w.val) 19683 ∧
    ((v.add w).2 = .O ↔ -9841 ≤ v.val + w.val ∧ v.val + w.val ≤ 9841) ∧
    v.add w = w.add v ∧ v.add Word.zero = (v, .O)

/-- R109: `negate` flips every trit, negates the value, and undoes itself. -/
def Obligations.NegateFlipsTritsAndSign : Prop :=
  ∀ w : Word,
    (∀ i, i ≤ 8 → (w.negate).trit i = (w.trit i).neg) ∧
    w.negate.val = -w.val ∧ w.negate.negate = w ∧
    (Word.ofInt 9841).negate = Word.ofInt (-9841) ∧ Word.zero.negate = Word.zero ∧
    Word.negate ⟨.O, .O, .O, .O, .P, .N, .N, .N, .O⟩ = ⟨.O, .O, .O, .O, .N, .P, .P, .P, .O⟩

/-- The sign by value is the most significant trit that is not `O`, and is the comparison with the zero
Word (40_numeral_alu.md section 4, which marks it derived). -/
def Obligations.SignIsLeadingTrit : Prop :=
  ∀ w : Word, w.sign = leadingTrit w 9 ∧
    (w.sign = .N ↔ w.compare Word.zero = .lt) ∧ (w.sign = .O ↔ w.compare Word.zero = .eq) ∧
    (w.sign = .P ↔ w.compare Word.zero = .gt)

/-- Comparison by value agrees with the scan of the trits from the top (40_numeral_alu.md section 4, which
marks it derived). -/
def Obligations.CompareAgreesWithTritScan : Prop :=
  ∀ v w : Word, v.compare w = compareTrits v w 9

/-- R113: position `i` of a shifted Word is `w[i − k]`, or `O` where that is no position. -/
def Obligations.ShiftMovesTritsAndFillsWithO : Prop :=
  ∀ (w : Word) (k : Int) (i : Nat), i ≤ 8 →
    (w.shift k).trit i = if 0 ≤ (i : Int) - k ∧ (i : Int) - k ≤ 8 then w.trit ((i : Int) - k).toNat else .O

/-- The value of a shifted Word: multiplied by 3^k with the high trits dropped, divided by 3^(−k) rounded
to nearest, or zero (40_numeral_alu.md section 5, which marks it derived). -/
def Obligations.ShiftMultipliesOrRoundsToNearest : Prop :=
  ∀ w : Word,
    (∀ k : Nat, k ≤ 8 → (w.shift (k : Int)).val = bmod (w.val * 3 ^ k) 19683) ∧
    (∀ k : Nat, 1 ≤ k → k ≤ 8 →
      2 * (w.val - (w.shift (-(k : Int))).val * 3 ^ k) < 3 ^ k ∧
      -(3 ^ k : Int) < 2 * (w.val - (w.shift (-(k : Int))).val * 3 ^ k)) ∧
    (∀ k : Int, 9 ≤ k ∨ k ≤ -9 → w.shift k = Word.zero)

/-- `unpair` inverts the value of a pair, both ways (40_numeral_alu.md section 6; decision D8). -/
def Obligations.UnpairInvertsPairValue : Prop :=
  (∀ hi lo : Word, unpair (pairVal hi lo) = (hi, lo)) ∧
  (∀ n : Int, -193710244 ≤ n → n ≤ 193710244 → pairVal (unpair n).1 (unpair n).2 = n)

/-! ### Memory -/

/-- Two memories in canonical form that read alike at every cell are equal data (the canonical form is
this model's choice, log entry 3; 20_memory.md section 1). -/
def Obligations.EqualReadsMeanEqualMemory : Prop :=
  ∀ m n : Memory, m.wf = true → n.wf = true → (∀ a, a < 162 → m.read a = n.read a) → m = n

/-! ### The cycle -/

/-- A step of a running engine whose `C` is the address of a cell is the meaning of the instruction that
the Word in that cell decodes to (41_execution_cycle.md sections 1 and 2; the meaning itself advances
`C`). -/
def Obligations.StepRunsDecodedInstruction : Prop :=
  ∀ (s : State) (i : Instr), s.RUN = true → 0 ≤ s.C.val → s.C.val ≤ 161 →
    decode (s.mem.read s.C.val.toNat) = i → step s = exec i s

/-- R133: `C` outside 0 to 161 is Fault(AddressFault) with no state change; otherwise the fetched Word is
the content of the cell. -/
def Obligations.FetchFaultsOutsideMemory : Prop :=
  ∀ s : State,
    (0 ≤ s.C.val ∧ s.C.val ≤ 161 → fetch s = .ok (s.mem.read s.C.val.toNat)) ∧
    (s.C.val < 0 ∨ 161 < s.C.val → s.RUN = true → engineStep s = (.fault .addressFault, s))

/-- A halted engine's step and every run of it change nothing and answer `Halted`, whatever `C` holds
(41_execution_cycle.md section 2; decision D13). -/
def Obligations.HaltedEngineStaysAsItIs : Prop :=
  ∀ (s : State) (n : Nat), s.RUN = false →
    step s = .next s ∧ engineStep s = (.halted, s) ∧ run n s = (.halted, s) ∧ runTrace n s = []

/-- R283: a faulted step leaves every part of the state as it was and calls no trace callback. -/
def Obligations.FaultLeavesStateUnchanged : Prop :=
  ∀ (s t : State) (k : Fault), engineStep s = (.fault k, t) → t = s ∧ stepTrace s = []

/-- A step of any state faults exactly with the first cause in the table's order, completes if there is
none, and is never refused (60_exceptions.md section 1; which causes exist rests on decisions D4, D7, D10
and D13). -/
def Obligations.StepFaultsFollowTheTable : Prop :=
  ∀ s : State,
    (∀ k, step s = .fault k ↔ faultOf s = some k) ∧ (faultOf s = none ↔ ∃ t, step s = .next t)

/-- The invariant of the machine is kept by every step, from every state that has it: canonical memory
(log entry 3), the latch the sign of `S`, `C` in 0 to 162 (10_state.md section 2; decisions D12, D21). -/
def Obligations.EveryStepKeepsInvariant : Prop :=
  ∀ s t : State, Inv s → step s = .next t → Inv t

/-- The state after reset has the invariant: canonical memory, which is this model's choice (log entry 3),
the latch the sign of `S` and `C` in 0 to 162 (10_state.md section 4; the register values are decision
D15). -/
def Obligations.ResetHasInvariant : Prop :=
  Inv State.reset

/-- Every state that resets, steps and loads lead to has the invariant: canonical memory, which is this
model's choice (log entry 3), the latch the sign of `S` and `C` in 0 to 162 (10_state.md section 2; decisions
D12, D16, D21). -/
def Obligations.ReachableStatesHaveInvariant : Prop :=
  ∀ s : State, Reachable s → Inv s

/-- The state after reset, every register and cell, and that its first step is Fault(DecodeError)
(10_state.md section 4, 70_reset_and_hazards.md section 1; the register values are decision D15, the
undefined opcode 0 is D4). -/
def Obligations.ResetStateAndItsFirstStep : Prop :=
  State.reset.S.val = 0 ∧ State.reset.R.val = 0 ∧ State.reset.F.val = 0 ∧ State.reset.C.val = 0 ∧
  State.reset.omega = .O ∧ State.reset.V = false ∧ State.reset.RUN = true ∧
  (∀ a, State.reset.mem.read a = Word.zero) ∧
  engineStep State.reset = (.fault .decodeError, State.reset)

/-- R28: HLT and nothing else clears the run flag, neither a step nor a load sets it again and reset does,
and while it is clear a step changes nothing and answers `Halted`. -/
def Obligations.OnlyHltClearsRunAndOnlyResetSetsIt : Prop :=
  (∀ s t : State, s.RUN = true → step s = .next t →
    (t.RUN = false ↔ ∃ n, decode (s.mem.read s.C.val.toNat) = .hlt n)) ∧
  (∀ s : State, s.RUN = false → engineStep s = (.halted, s)) ∧
  (∀ (s t : State) (img : Image), loadImage img s = .ok t → t.RUN = s.RUN) ∧
  State.reset.RUN = true

/-- No step clears `V`, and only ADD, SUB and LOOP set it (10_state.md section 2; decision D6). -/
def Obligations.OverflowFlagIsSticky : Prop :=
  ∀ s t : State, step s = .next t →
    (s.V = true → t.V = true) ∧
    (s.V = false → t.V = true → ∃ n,
      decode (s.mem.read s.C.val.toNat) = .add n ∨ decode (s.mem.read s.C.val.toNat) = .sub n ∨
      decode (s.mem.read s.C.val.toNat) = .loop n)

/-- Which instructions may change which piece of state, every other one leaving it as it was: the "written
by" column of the register table and the memory writers (10_state.md section 2, 20_memory.md section 1;
the instructions are decision D5). -/
def Obligations.OnlyTheListedInstructionsWrite : Prop :=
  ∀ (i : Instr) (s t : State), exec i s = .next t →
    ((∀ n, i ≠ .lda n ∧ i ≠ .xchg n ∧ i ≠ .ldx n ∧ i ≠ .xsr n ∧ i ≠ .add n ∧ i ≠ .sub n ∧ i ≠ .mul n ∧
      i ≠ .div n ∧ i ≠ .neg n ∧ i ≠ .sha n ∧ i ≠ .shd n) → t.S = s.S ∧ t.omega = s.omega) ∧
    ((∀ n, i ≠ .ldr n ∧ i ≠ .xsr n ∧ i ≠ .mul n ∧ i ≠ .div n ∧ i ≠ .shd n) → t.R = s.R) ∧
    ((∀ n, i ≠ .ldf n ∧ i ≠ .loop n) → t.F = s.F) ∧
    ((∀ n, i ≠ .add n ∧ i ≠ .sub n ∧ i ≠ .loop n) → t.V = s.V) ∧
    ((∀ n, i ≠ .hlt n) → t.RUN = s.RUN) ∧
    ((∀ n, i ≠ .sta n ∧ i ≠ .xchg n ∧ i ≠ .str n ∧ i ≠ .stf n ∧ i ≠ .stx n) → t.mem = s.mem)

/-- The value 162 reaches `C` only by falling through from address 161; every other completed step leaves
`C` at the address of a cell (44_control_flow.md, 10_state.md section 2; decisions D10, D12). -/
def Obligations.CounterLeavesMemoryOnlyFromTheLastCell : Prop :=
  ∀ s t : State, s.RUN = true → step s = .next t →
    (0 ≤ t.C.val ∧ t.C.val ≤ 161) ∨ (t.C.val = 162 ∧ s.C.val = 161)

/-! ### Runs, traces, loading -/

/-- What a bounded run computes, and how it ends: it steps until halted, faulted or out of budget; halted with
`RUN` clear; faulted at a running state whose own step is that fault, so that the fault is precise; or out
of budget and still running (41_execution_cycle.md section 3, 60_exceptions.md section 1; decisions D14,
D17). -/
def Obligations.RunEndsAsItsStatusSays : Prop :=
  (∀ (n : Nat) (s : State),
    ((run n s).1 = .halted → (run n s).2.RUN = false) ∧
    (∀ k, (run n s).1 = .fault k → (run n s).2.RUN = true ∧ step (run n s).2 = .fault k) ∧
    ((run n s).1 = .budgetExceeded → (run n s).2.RUN = true)) ∧
  (∀ s : State, s.RUN = true → run 0 s = (.budgetExceeded, s)) ∧
  (∀ (n : Nat) (s t : State), s.RUN = true →
    (engineStep s = (.continuing, t) → run (n + 1) s = run n t) ∧
    (engineStep s = (.halted, t) → run (n + 1) s = (.halted, t)) ∧
    (∀ k, engineStep s = (.fault k, t) → run (n + 1) s = (.fault k, t)))

/-- A run that was out of budget goes on where it stopped: running `m` and then `n` steps is running
`m + n` (41_execution_cycle.md section 3; decision D17). -/
def Obligations.RunContinuesAfterBudget : Prop :=
  ∀ (m n : Nat) (s t : State), run m s = (.budgetExceeded, t) → run (m + n) s = run n t

/-- The trace of a run is one record for each completed step, in order. Each record's pre-state runs, its
instruction is the one decoded there and its post-state is the step's. The first pre-state is the start,
each next one the post-state before it, and the last post-state is where the run ends. A run out of budget
has as many records as the budget, a faulted run as many as the steps before the fault, and a halted run
one for HLT beside those before it (41_execution_cycle.md section 5; decision D28; the list is this model's
choice, log entry 20). -/
def Obligations.TraceHasOneRecordPerCompletedStep : Prop :=
  ∀ (n : Nat) (s : State),
    (∀ r ∈ runTrace n s, r.pre.RUN = true ∧ r.instr = decode (r.pre.mem.read r.pre.C.val.toNat) ∧
      step r.pre = .next r.post) ∧
    (∀ r, (runTrace n s).head? = some r → r.pre = s) ∧
    (∀ (i : Nat) (r r' : TraceRecord), (runTrace n s)[i]? = some r → (runTrace n s)[i + 1]? = some r' →
      r'.pre = r.post) ∧
    (∀ r, (runTrace n s).getLast? = some r → r.post = (run n s).2) ∧
    (runTrace n s = [] → (run n s).2 = s) ∧
    (runTrace n s).length ≤ n ∧
    ((run n s).1 = .budgetExceeded → (runTrace n s).length = n) ∧
    (∀ k, (run n s).1 = .fault k → (runTrace n s).length < n ∧
      run (runTrace n s).length s = (.budgetExceeded, (run n s).2)) ∧
    ((run n s).1 = .halted → s.RUN = true → ∃ m, (runTrace n s).length = m + 1 ∧
      (run m s).1 = .budgetExceeded ∧ run (m + 1) s = (.halted, (run n s).2))

/-- `load_image` of an image with valid addresses, each named once, and a valid entry: the image's cells
hold its Words, every other cell and everything but `C` is as before, and `C` is the entry; any other
address or entry is refused with AddressFault (41_execution_cycle.md section 4; decision D16). -/
def Obligations.LoadImageCopiesCellsAndSetsEntry : Prop :=
  ∀ (img : Image) (s : State),
    ((∀ c ∈ img.cells, 0 ≤ c.1 ∧ c.1 ≤ 161) → 0 ≤ img.entry ∧ img.entry ≤ 161 →
      (img.cells.map Prod.fst).Nodup →
      ∃ t, loadImage img s = .ok t ∧
        t = { s with mem := t.mem, C := Word.ofInt img.entry } ∧ t.C.val = img.entry ∧
        (∀ c ∈ img.cells, t.mem.read c.1.toNat = c.2) ∧
        (∀ a : Nat, (a : Int) ∉ img.cells.map Prod.fst → t.mem.read a = s.mem.read a)) ∧
    ((∃ c ∈ img.cells, c.1 < 0 ∨ 161 < c.1) ∨ img.entry < 0 ∨ 161 < img.entry →
      loadImage img s = .error .addressFault)

/-! ### The Execution Controller -/

/-- A breakpoint set is a set of integers; setting one twice or clearing an absent one changes nothing, and
the engine, its memory included, and the session are untouched (60_exceptions.md section 3; that the set is held as a
list is this model's choice, log entry 21). -/
def Obligations.BreakpointsFormASet : Prop :=
  ∀ (c : Controller) (a b : Int),
    (c.setBreakpoint a).setBreakpoint a = c.setBreakpoint a ∧
    (a ∉ c.breakpoints → c.clearBreakpoint a = c) ∧
    (b ∈ (c.setBreakpoint a).breakpoints ↔ b = a ∨ b ∈ c.breakpoints) ∧
    (b ∈ (c.clearBreakpoint a).breakpoints ↔ b ≠ a ∧ b ∈ c.breakpoints) ∧
    (c.setBreakpoint a).engine = c.engine ∧ (c.clearBreakpoint a).engine = c.engine ∧
    (c.setBreakpoint a).session = c.session ∧ (c.clearBreakpoint a).session = c.session

/-- A run stops at a breakpoint, and stands there when it says so. A call with `C` at a cell in the set, the
engine running and the session not Stopped-at-breakpoint at `C` reports that breakpoint at once, whatever
its budget, with no step and no record. A run that reports a breakpoint has `C` at the reported address,
which is that of a cell and in the set; the engine still runs, and the session is Stopped-at-breakpoint
there. That no address outside 0 to 161 stops a run is R302 read into the loop of R303 (log entry 22)
(60_exceptions.md section 3; decision D27). -/
def Obligations.BreakpointStopStandsAtTheBreakpoint : Prop :=
  (∀ (c : Controller) (n : Nat), c.engine.RUN = true → 0 ≤ c.engine.C.val ∧ c.engine.C.val ≤ 161 →
    c.engine.C.val ∈ c.breakpoints → c.session ≠ .stoppedAtBreakpoint c.engine.C.val →
    c.runUntil n = (.breakpointHit c.engine.C.val,
      { c with session := .stoppedAtBreakpoint c.engine.C.val }) ∧ c.runTrace n = []) ∧
  (∀ (c d : Controller) (n : Nat) (a : Int), c.runUntil n = (.breakpointHit a, d) →
    d.engine.C.val = a ∧ (0 ≤ a ∧ a ≤ 161) ∧ a ∈ c.breakpoints ∧ d.engine.RUN = true ∧
    d.session = .stoppedAtBreakpoint a ∧ d.breakpoints = c.breakpoints)

/-- A controlled run is the engine's own run, up to the breakpoint it stops at: if it reports a breakpoint,
it made some number of the engine's steps, and its records are those of that run; if it does not, it ends
as the engine's run with the same budget ends, in the same state and with the same records. Without
breakpoints it never reports one. So the controller adds no execution semantics (60_exceptions.md
section 3; the lists of records are this model's choice, log entry 20). -/
def Obligations.ControlledRunWithoutBreakpointsIsRun : Prop :=
  ∀ (c : Controller) (n : Nat),
    (∀ a, (c.runUntil n).1 = .breakpointHit a → ∃ m, m ≤ n ∧
      run m c.engine = (.budgetExceeded, (c.runUntil n).2.engine) ∧ c.runTrace n = runTrace m c.engine) ∧
    ((∀ a, (c.runUntil n).1 ≠ .breakpointHit a) →
      (c.runUntil n).2.engine = (run n c.engine).2 ∧ c.runTrace n = runTrace n c.engine ∧
      ((c.runUntil n).1 = .halted ↔ (run n c.engine).1 = .halted) ∧
      ((c.runUntil n).1 = .budgetExceeded ↔ (run n c.engine).1 = .budgetExceeded) ∧
      (∀ k, (c.runUntil n).1 = .fault k ↔ (run n c.engine).1 = .fault k)) ∧
    (c.breakpoints = [] → ∀ a, (c.runUntil n).1 ≠ .breakpointHit a)

/-- The session each call of the controller leaves. A run call leaves the one its status names, and never
Running; one that starts stopped at a breakpoint makes one step without testing it and then goes on as a
call with one step less from a Ready session. A single step leaves Ready, Halted or Faulted by its status,
whatever the breakpoints. An accepted load leaves Ready, or Halted where `RUN` is still clear, and a refused
one is the engine's refusal. A reset leaves a fresh engine and Ready. No call changes the breakpoint set
(60_exceptions.md section 3, 70_reset_and_hazards.md section 1; decisions D15, D27). -/
def Obligations.SessionMatchesTheRunsEnding : Prop :=
  (∀ (c : Controller) (n : Nat),
    ((c.runUntil n).1 = .halted → (c.runUntil n).2.session = .halted) ∧
    ((c.runUntil n).1 = .budgetExceeded → (c.runUntil n).2.session = .ready) ∧
    (∀ k, (c.runUntil n).1 = .fault k → (c.runUntil n).2.session = .faulted k) ∧
    (c.runUntil n).2.session ≠ .running ∧
    (c.runUntil n).2.breakpoints = c.breakpoints ∧
    (∀ t, c.session = .stoppedAtBreakpoint c.engine.C.val → engineStep c.engine = (.continuing, t) →
      c.runUntil (n + 1) = Controller.runUntil { c with engine := t, session := .ready } n)) ∧
  (∀ (c : Controller) (t : State),
    (engineStep c.engine = (.continuing, t) →
      c.step = (.continuing, { c with engine := t, session := .ready })) ∧
    (engineStep c.engine = (.halted, t) →
      c.step = (.halted, { c with engine := t, session := .halted })) ∧
    (∀ k, engineStep c.engine = (.fault k, t) →
      c.step = (.fault k, { c with engine := t, session := .faulted k }))) ∧
  (∀ (c : Controller) (img : Image) (t : State), loadImage img c.engine = .ok t →
    (c.engine.RUN = true → c.loadImage img = .ok { c with engine := t, session := .ready }) ∧
    (c.engine.RUN = false → c.loadImage img = .ok { c with engine := t, session := .halted })) ∧
  (∀ (c : Controller) (img : Image) (k : Fault), loadImage img c.engine = .error k →
    c.loadImage img = .error k) ∧
  (∀ c : Controller, c.reset = { c with engine := State.reset, session := .ready })

/-! ### The assembler -/

/-- Every image the assembler produces names each address once, in rising order, within 0 to 161, and
loads into any engine without a fault (47_assembler.md sections 3 and 6; decision D25; that the mapping is
a list, and its cells in rising order, is this model's choice, log entries 12 and 16). -/
def Obligations.AssembledImagesAlwaysLoad : Prop :=
  ∀ (src : List Char) (img : Image), assemble src = .ok img →
    img.wf = true ∧ ∀ s : State, ∃ t, loadImage img s = .ok t ∧ t.C.val = img.entry

/-- R263: sources with the same tokens on their non-empty lines assemble to the same image, or fail with
the same kind of error; a comment adds no token, a second space or tab next to one changes no token, and
neither does one before or after the line. -/
def Obligations.LayoutNeverChangesTheImage : Prop :=
  (∀ src src' : List Char,
    ((sourceLines src).map fun l => tokens l.text).filter (fun ts => !ts.isEmpty) =
      ((sourceLines src').map fun l => tokens l.text).filter (fun ts => !ts.isEmpty) →
    (∀ img, assemble src = .ok img ↔ assemble src' = .ok img) ∧
    (∀ k, (∃ e, assemble src = .error e ∧ e.kind = k) ↔ ∃ e, assemble src' = .error e ∧ e.kind = k)) ∧
  (∀ l comment : List Char, tokens (l ++ ';' :: comment) = tokens l) ∧
  (∀ (l r : List Char) (b c : Char), (b = ' ' ∨ b = '\t') → (c = ' ' ∨ c = '\t') →
    tokens (l ++ b :: c :: r) = tokens (l ++ b :: r) ∧ tokens (c :: l) = tokens l ∧
    tokens (l ++ [c]) = tokens l)

/-- In an assembled image every DAT line has a cell with the literal's value, and every instruction
line a cell with the mnemonic's opcode and the resolved operand in its fields, which the engine's decoder
reads as the instruction of that mnemonic. The image has no other cell, and its entry is the first
instruction line's address, or 0 if there is none. The last clauses say what a DAT line and an instruction
line are, class Z without an operand included, and that the mnemonics are those of the 24 instructions
(47_assembler.md sections 2, 3, 4 and 6; decisions D3, D23, D25). -/
def Obligations.AssembledWordsSayWhatTheSourceSays : Prop :=
  (∀ (src : List Char) (p : Pass1) (img : Image),
    pass1 (sourceLines src) Pass1.start = .ok p → assemble src = .ok img →
    (∀ line ∈ sourceLines src, ∀ label rest item,
      splitLabel (tokens line.text) = .ok (label, rest) → parseRest rest = .ok (.emit item) →
      ∃ e ∈ p.emissions, e.line = line ∧ e.item = item) ∧
    (∀ e ∈ p.emissions,
      (∀ v, e.item = .data v → ∃ w, (e.addr, w) ∈ img.cells ∧ w.val = v) ∧
      (∀ opc op, e.item = .instruction opc op → ∃ w v, (e.addr, w) ∈ img.cells ∧
        operandValue p.labels op = .ok v ∧ w.opcField = opc ∧ w.opndField = v)) ∧
    (∀ c ∈ img.cells, ∃ e ∈ p.emissions, e.addr = c.1) ∧ img.labels = p.labels ∧
    (∀ before e after, p.emissions = before ++ e :: after → (∀ d ∈ before, ∃ v, d.item = .data v) →
      (∃ opc op, e.item = .instruction opc op) → img.entry = e.addr) ∧
    ((∀ d ∈ p.emissions, ∃ v, d.item = .data v) → img.entry = 0)) ∧
  (∀ (m : List Char) (opc : Int) (cls : OperandClass) (w : Word),
    lookupMnemonic m mnemonicTable = some (opc, cls) → w.opcField = opc →
    mnemonicOf (decode w) = some m ∧ (decode w).opClass = cls ∧ (decode w).opnd = w.opndField) ∧
  (∀ i : Instr, i.undefined = false →
    ∃ m, mnemonicOf i = some m ∧ lookupMnemonic m mnemonicTable = some (i.opc, i.opClass)) ∧
  (∀ (t : List Char) (v : Int), parseLiteral t = some v →
    parseRest [['D', 'A', 'T'], t] = .ok (.emit (.data v))) ∧
  (∀ (m t : List Char) (opc : Int) (cls : OperandClass) (op : AsmOperand),
    lookupMnemonic m mnemonicTable = some (opc, cls) → parseOperand t = some op →
    parseRest [m, t] = .ok (.emit (.instruction opc op))) ∧
  (∀ (m : List Char) (opc : Int) (cls : OperandClass), lookupMnemonic m mnemonicTable = some (opc, cls) →
    (cls = .Z → parseRest [m] = .ok (.emit (.instruction opc (.literal 0)))) ∧
    (cls ≠ .Z → parseRest [m] = .error .badSyntax))

/-! ### Data transfer -/

/-- R161: LDA. The next state is written in full: `S` and `omega` from the cell, `C` advanced, everything
else, memory included, as before. -/
def Obligations.LdaLoadsTheAccumulator : Prop :=
  ∀ (opnd : Int) (s : State),
    (-364 ≤ opnd ∧ opnd ≤ 364 → decode (Word.ofInt (729 + opnd)) = .lda opnd) ∧
    (0 ≤ opnd ∧ opnd ≤ 161 →
      exec (.lda opnd) s = .next { s with
        S := s.mem.read opnd.toNat
        omega := (s.mem.read opnd.toNat).sign
        C := Word.ofInt (s.C.val + 1) }) ∧
    (opnd < 0 ∨ 161 < opnd → exec (.lda opnd) s = .fault .addressFault)

/-- R162: STA. Only cell `opnd` and `C` change. -/
def Obligations.StaStoresTheAccumulator : Prop :=
  ∀ (opnd : Int) (s : State),
    (-364 ≤ opnd ∧ opnd ≤ 364 → decode (Word.ofInt (1458 + opnd)) = .sta opnd) ∧
    (0 ≤ opnd ∧ opnd ≤ 161 →
      ∃ t, exec (.sta opnd) s = .next t ∧
        t = { s with mem := t.mem, C := Word.ofInt (s.C.val + 1) } ∧
        t.mem.read opnd.toNat = s.S ∧ ∀ a, a ≠ opnd.toNat → t.mem.read a = s.mem.read a) ∧
    (opnd < 0 ∨ 161 < opnd → exec (.sta opnd) s = .fault .addressFault)

/-- R163: XCHG. `S` and cell `opnd` change places in one step. -/
def Obligations.XchgSwapsAccumulatorAndCell : Prop :=
  ∀ (opnd : Int) (s : State),
    (-364 ≤ opnd ∧ opnd ≤ 364 → decode (Word.ofInt (2187 + opnd)) = .xchg opnd) ∧
    (0 ≤ opnd ∧ opnd ≤ 161 →
      ∃ t, exec (.xchg opnd) s = .next t ∧
        t = { s with
          mem := t.mem
          S := s.mem.read opnd.toNat
          omega := (s.mem.read opnd.toNat).sign
          C := Word.ofInt (s.C.val + 1) } ∧
        t.mem.read opnd.toNat = s.S ∧ ∀ a, a ≠ opnd.toNat → t.mem.read a = s.mem.read a) ∧
    (opnd < 0 ∨ 161 < opnd → exec (.xchg opnd) s = .fault .addressFault)

/-- LDR and LDF load `R` and `F` and leave `S` and `omega` alone (42_data_transfer.md; designed by the
spec, decision D5). -/
def Obligations.LdrAndLdfLoadTheirRegister : Prop :=
  ∀ (opnd : Int) (s : State),
    (-364 ≤ opnd ∧ opnd ≤ 364 →
      decode (Word.ofInt (2916 + opnd)) = .ldr opnd ∧ decode (Word.ofInt (4374 + opnd)) = .ldf opnd) ∧
    (0 ≤ opnd ∧ opnd ≤ 161 →
      exec (.ldr opnd) s =
        .next { s with R := s.mem.read opnd.toNat, C := Word.ofInt (s.C.val + 1) } ∧
      exec (.ldf opnd) s =
        .next { s with F := s.mem.read opnd.toNat, C := Word.ofInt (s.C.val + 1) }) ∧
    (opnd < 0 ∨ 161 < opnd →
      exec (.ldr opnd) s = .fault .addressFault ∧ exec (.ldf opnd) s = .fault .addressFault)

/-- STR and STF store `R` and `F` into cell `opnd` and change nothing else but `C`
(42_data_transfer.md; designed by the spec, decision D5). -/
def Obligations.StrAndStfStoreTheirRegister : Prop :=
  ∀ (opnd : Int) (s : State),
    (-364 ≤ opnd ∧ opnd ≤ 364 →
      decode (Word.ofInt (3645 + opnd)) = .str opnd ∧ decode (Word.ofInt (5103 + opnd)) = .stf opnd) ∧
    (0 ≤ opnd ∧ opnd ≤ 161 →
      (∃ t, exec (.str opnd) s = .next t ∧
        t = { s with mem := t.mem, C := Word.ofInt (s.C.val + 1) } ∧
        t.mem.read opnd.toNat = s.R ∧ ∀ a, a ≠ opnd.toNat → t.mem.read a = s.mem.read a) ∧
      (∃ t, exec (.stf opnd) s = .next t ∧
        t = { s with mem := t.mem, C := Word.ofInt (s.C.val + 1) } ∧
        t.mem.read opnd.toNat = s.F ∧ ∀ a, a ≠ opnd.toNat → t.mem.read a = s.mem.read a)) ∧
    (opnd < 0 ∨ 161 < opnd →
      exec (.str opnd) s = .fault .addressFault ∧ exec (.stf opnd) s = .fault .addressFault)

/-- LDX and STX use the cell at `opnd + val(F)`, an unbounded sum, and fault exactly when that is outside
0 to 161, whatever `opnd` alone is (42_data_transfer.md; decisions D5, D20). -/
def Obligations.LdxAndStxUseTheIndexedCell : Prop :=
  ∀ (opnd : Int) (s : State),
    (-364 ≤ opnd ∧ opnd ≤ 364 →
      decode (Word.ofInt (5832 + opnd)) = .ldx opnd ∧ decode (Word.ofInt (6561 + opnd)) = .stx opnd) ∧
    (0 ≤ opnd + s.F.val ∧ opnd + s.F.val ≤ 161 →
      exec (.ldx opnd) s = .next { s with
        S := s.mem.read (opnd + s.F.val).toNat
        omega := (s.mem.read (opnd + s.F.val).toNat).sign
        C := Word.ofInt (s.C.val + 1) } ∧
      (∃ t, exec (.stx opnd) s = .next t ∧
        t = { s with mem := t.mem, C := Word.ofInt (s.C.val + 1) } ∧
        t.mem.read (opnd + s.F.val).toNat = s.S ∧
        ∀ a, a ≠ (opnd + s.F.val).toNat → t.mem.read a = s.mem.read a)) ∧
    (opnd + s.F.val < 0 ∨ 161 < opnd + s.F.val →
      exec (.ldx opnd) s = .fault .addressFault ∧ exec (.stx opnd) s = .fault .addressFault)

/-- XSR exchanges `S` and `R`, whatever the operand trits, and doing it twice restores `S`, `R` and, where
it was the sign of `S`, `omega` (42_data_transfer.md; decisions D5, D11). -/
def Obligations.XsrSwapsAccumulatorAndExtension : Prop :=
  ∀ (opnd : Int) (s : State),
    (-364 ≤ opnd ∧ opnd ≤ 364 → decode (Word.ofInt (-8019 + opnd)) = .xsr opnd) ∧
    exec (.xsr opnd) s = .next { s with
      S := s.R, omega := s.R.sign, R := s.S, C := Word.ofInt (s.C.val + 1) } ∧
    (∀ t u, exec (.xsr opnd) s = .next t → exec (.xsr opnd) t = .next u → s.omega = s.S.sign →
      u = { s with C := u.C })

/-! ### Arithmetic -/

/-- ADD: `S` receives the adder's Word, which is the sum wrapped into range; `V` is set exactly if the carry
is not `O`, that is if the true sum is out of range; `omega` is the sign of the Word stored (43_arithmetic.md,
and for the arithmetic of the wrap 40_numeral_alu.md section 3, which marks it derived; decision D6, log
entry 1). -/
def Obligations.AddAccumulatesAndNotesOverflow : Prop :=
  ∀ (opnd : Int) (s : State),
    (-364 ≤ opnd ∧ opnd ≤ 364 → decode (Word.ofInt (7290 + opnd)) = .add opnd) ∧
    (0 ≤ opnd ∧ opnd ≤ 161 →
      ∃ t, exec (.add opnd) s = .next t ∧
        t = { s with S := t.S, omega := t.S.sign, V := t.V, C := Word.ofInt (s.C.val + 1) } ∧
        t.S = (s.S.add (s.mem.read opnd.toNat)).1 ∧
        t.S.val = bmod (s.S.val + (s.mem.read opnd.toNat).val) 19683 ∧
        (t.V = true ↔ s.V = true ∨ (s.S.add (s.mem.read opnd.toNat)).2 ≠ .O) ∧
        (t.V = true ↔ s.V = true ∨ s.S.val + (s.mem.read opnd.toNat).val < -9841 ∨
          9841 < s.S.val + (s.mem.read opnd.toNat).val)) ∧
    (opnd < 0 ∨ 161 < opnd → exec (.add opnd) s = .fault .addressFault)

/-- SUB: the difference wrapped into range, `V` set exactly if the true difference is out of range, and
where it is not, `omega` is the comparison of the old `S` with the cell (43_arithmetic.md; decisions D5,
D6). -/
def Obligations.SubSubtractsAndCompares : Prop :=
  ∀ (opnd : Int) (s : State),
    (-364 ≤ opnd ∧ opnd ≤ 364 → decode (Word.ofInt (8019 + opnd)) = .sub opnd) ∧
    (0 ≤ opnd ∧ opnd ≤ 161 →
      ∃ t, exec (.sub opnd) s = .next t ∧
        t = { s with S := t.S, omega := t.S.sign, V := t.V, C := Word.ofInt (s.C.val + 1) } ∧
        t.S.val = bmod (s.S.val - (s.mem.read opnd.toNat).val) 19683 ∧
        (t.V = true ↔ s.V = true ∨ s.S.val - (s.mem.read opnd.toNat).val < -9841 ∨
          9841 < s.S.val - (s.mem.read opnd.toNat).val) ∧
        (t.V = false → (t.omega = .P ↔ (s.mem.read opnd.toNat).val < s.S.val) ∧
          (t.omega = .O ↔ s.S = s.mem.read opnd.toNat) ∧
          (t.omega = .N ↔ s.S.val < (s.mem.read opnd.toNat).val))) ∧
    (opnd < 0 ∨ 161 < opnd → exec (.sub opnd) s = .fault .addressFault)

/-- MUL: the pair `R:S` is the exact product, `omega` the sign of the low Word, and `V` is not changed
(43_arithmetic.md; decision D8). -/
def Obligations.MulGivesTheExactProductInThePair : Prop :=
  ∀ (opnd : Int) (s : State),
    (-364 ≤ opnd ∧ opnd ≤ 364 → decode (Word.ofInt (8748 + opnd)) = .mul opnd) ∧
    (0 ≤ opnd ∧ opnd ≤ 161 →
      ∃ t, exec (.mul opnd) s = .next t ∧
        t = { s with R := t.R, S := t.S, omega := t.S.sign, C := Word.ofInt (s.C.val + 1) } ∧
        t.R.val * 19683 + t.S.val = s.S.val * (s.mem.read opnd.toNat).val) ∧
    (opnd < 0 ∨ 161 < opnd → exec (.mul opnd) s = .fault .addressFault)

/-- DIV: quotient toward zero into `S`, remainder with the dividend's sign into `R`; a zero divisor is
RangeError (43_arithmetic.md; decisions D7, D9). -/
def Obligations.DivTruncatesAndFaultsOnZero : Prop :=
  ∀ (opnd : Int) (s : State),
    (-364 ≤ opnd ∧ opnd ≤ 364 → decode (Word.ofInt (-4374 + opnd)) = .div opnd) ∧
    (0 ≤ opnd ∧ opnd ≤ 161 → (s.mem.read opnd.toNat).val ≠ 0 →
      ∃ t, exec (.div opnd) s = .next t ∧
        t = { s with R := t.R, S := t.S, omega := t.S.sign, C := Word.ofInt (s.C.val + 1) } ∧
        s.S.val = t.S.val * (s.mem.read opnd.toNat).val + t.R.val ∧
        t.R.val.natAbs < (s.mem.read opnd.toNat).val.natAbs ∧
        (t.R.val = 0 ∨ t.R.val.sign = s.S.val.sign)) ∧
    (0 ≤ opnd ∧ opnd ≤ 161 → (s.mem.read opnd.toNat).val = 0 →
      exec (.div opnd) s = .fault .rangeError) ∧
    (opnd < 0 ∨ 161 < opnd → exec (.div opnd) s = .fault .addressFault)

/-- NEG negates `S` exactly, whatever the operand trits, and `N` and `P` change places in the sign
(43_arithmetic.md; decisions D5, D11). -/
def Obligations.NegNegatesTheAccumulator : Prop :=
  ∀ (opnd : Int) (s : State),
    (-364 ≤ opnd ∧ opnd ≤ 364 → decode (Word.ofInt (-5103 + opnd)) = .neg opnd) ∧
    ∃ t, exec (.neg opnd) s = .next t ∧
      t = { s with S := t.S, omega := t.S.sign, C := Word.ofInt (s.C.val + 1) } ∧
      t.S.val = -s.S.val ∧ t.omega = s.S.sign.neg

/-! ### Control flow -/

/-- R201: JMP. Only `C` changes, to the target; a target outside memory faults. -/
def Obligations.JmpGoesToItsTarget : Prop :=
  ∀ (opnd : Int) (s : State),
    (-364 ≤ opnd ∧ opnd ≤ 364 → decode (Word.ofInt (-729 + opnd)) = .jmp opnd) ∧
    (0 ≤ opnd ∧ opnd ≤ 161 →
      ∃ t, exec (.jmp opnd) s = .next t ∧ t = { s with C := t.C } ∧ t.C.val = opnd) ∧
    (opnd < 0 ∨ 161 < opnd → exec (.jmp opnd) s = .fault .addressFault)

/-- R202: JZ. Only `C` changes: to the target iff `omega` is `O`, which with the latch the sign of `S` is
`val(S) = 0`; a target outside memory faults whether or not the jump would be taken. -/
def Obligations.JzJumpsOnZero : Prop :=
  ∀ (opnd : Int) (s : State),
    (-364 ≤ opnd ∧ opnd ≤ 364 → decode (Word.ofInt (-1458 + opnd)) = .jz opnd) ∧
    (0 ≤ opnd ∧ opnd ≤ 161 →
      (s.omega = .O → exec (.jz opnd) s = .next { s with C := Word.ofInt opnd }) ∧
      (s.omega ≠ .O → exec (.jz opnd) s = .next { s with C := Word.ofInt (s.C.val + 1) }) ∧
      (Word.ofInt opnd).val = opnd) ∧
    (opnd < 0 ∨ 161 < opnd → exec (.jz opnd) s = .fault .addressFault) ∧
    (s.omega = s.S.sign → (s.omega = .O ↔ s.S.val = 0))

/-- JP and JN jump iff `omega` is `P`, or `N`; of JZ, JP and JN exactly one is taken, since the latch is
one of three (44_control_flow.md; names decided by D5, the check by D10). -/
def Obligations.JpAndJnJumpOnSign : Prop :=
  ∀ (opnd : Int) (s : State),
    (-364 ≤ opnd ∧ opnd ≤ 364 →
      decode (Word.ofInt (-2187 + opnd)) = .jp opnd ∧ decode (Word.ofInt (-2916 + opnd)) = .jn opnd) ∧
    (0 ≤ opnd ∧ opnd ≤ 161 →
      (s.omega = .P → exec (.jp opnd) s = .next { s with C := Word.ofInt opnd }) ∧
      (s.omega ≠ .P → exec (.jp opnd) s = .next { s with C := Word.ofInt (s.C.val + 1) }) ∧
      (s.omega = .N → exec (.jn opnd) s = .next { s with C := Word.ofInt opnd }) ∧
      (s.omega ≠ .N → exec (.jn opnd) s = .next { s with C := Word.ofInt (s.C.val + 1) }) ∧
      (Word.ofInt opnd).val = opnd) ∧
    (opnd < 0 ∨ 161 < opnd →
      exec (.jp opnd) s = .fault .addressFault ∧ exec (.jn opnd) s = .fault .addressFault) ∧
    (s.omega = s.S.sign → (s.omega = .P ↔ 0 < s.S.val) ∧ (s.omega = .N ↔ s.S.val < 0))

/-- LOOP decrements `F`, wrapping −9841 to 9841 with `V` set, and jumps iff the new `F` is not zero;
nothing else changes (44_control_flow.md; decision D19). -/
def Obligations.LoopDecrementsAndJumpsWhileNotZero : Prop :=
  ∀ (opnd : Int) (s : State),
    (-364 ≤ opnd ∧ opnd ≤ 364 → decode (Word.ofInt (-3645 + opnd)) = .loop opnd) ∧
    (0 ≤ opnd ∧ opnd ≤ 161 →
      ∃ t, exec (.loop opnd) s = .next t ∧
        t = { s with F := t.F, V := t.V, C := t.C } ∧
        t.F.val = (if s.F.val = -9841 then 9841 else s.F.val - 1) ∧
        (t.V = true ↔ s.V = true ∨ s.F.val = -9841) ∧
        (s.F.val ≠ 1 → t.C.val = opnd) ∧ (s.F.val = 1 → t.C = Word.ofInt (s.C.val + 1))) ∧
    (opnd < 0 ∨ 161 < opnd → exec (.loop opnd) s = .fault .addressFault)

/-! ### Shift -/

/-- SHA shifts `S` by the operand value, any count, trit by trit, and writes `omega`; `V` is not changed
(45_shift.md; decision D18). -/
def Obligations.ShaShiftsTheAccumulator : Prop :=
  ∀ (opnd : Int) (s : State),
    (-364 ≤ opnd ∧ opnd ≤ 364 → decode (Word.ofInt (-6561 + opnd)) = .sha opnd) ∧
    ∃ t, exec (.sha opnd) s = .next t ∧
      t = { s with S := t.S, omega := t.S.sign, C := Word.ofInt (s.C.val + 1) } ∧
      (∀ i : Nat, i ≤ 8 → t.S.trit i =
        if 0 ≤ (i : Int) - opnd ∧ (i : Int) - opnd ≤ 8 then s.S.trit ((i : Int) - opnd).toNat else .O)

/-- SHD shifts the 18 trits of `R:S` by the operand value, any count; `omega` follows the new low Word
and `V` is not changed (45_shift.md; decisions D8, D18). -/
def Obligations.ShdShiftsThePair : Prop :=
  ∀ (opnd : Int) (s : State),
    (-364 ≤ opnd ∧ opnd ≤ 364 → decode (Word.ofInt (-7290 + opnd)) = .shd opnd) ∧
    ∃ t, exec (.shd opnd) s = .next t ∧
      t = { s with R := t.R, S := t.S, omega := t.S.sign, C := Word.ofInt (s.C.val + 1) } ∧
      (∀ i : Nat, i ≤ 17 → pairTrit t.R t.S i =
        if 0 ≤ (i : Int) - opnd ∧ (i : Int) - opnd ≤ 17 then pairTrit s.R s.S ((i : Int) - opnd).toNat
        else .O)

/-! ### System -/

/-- R231: HLT clears `RUN`, advances `C` and answers `Halted`, whatever the operand trits; afterwards
steps and runs change nothing and leave no trace record, and a load does not set `RUN`. -/
def Obligations.HltHaltsForGood : Prop :=
  ∀ (opnd : Int) (s : State),
    (-364 ≤ opnd ∧ opnd ≤ 364 → decode (Word.ofInt (-8748 + opnd)) = .hlt opnd) ∧
    ∃ t, exec (.hlt opnd) s = .next t ∧
      t = { s with RUN := false, C := Word.ofInt (s.C.val + 1) } ∧
      (s.RUN = true → 0 ≤ s.C.val ∧ s.C.val ≤ 161 → decode (s.mem.read s.C.val.toNat) = .hlt opnd →
        engineStep s = (.halted, t) ∧
        stepTrace s = [{ pre := s, instr := .hlt opnd, post := t }]) ∧
      (∀ n, engineStep t = (.halted, t) ∧ run n t = (.halted, t) ∧ runTrace n t = []) ∧
      (∀ img u, loadImage img t = .ok u → u.RUN = false) ∧ State.reset.RUN = true

/-- R232: NOP changes `C` and nothing else, whatever the operand trits; at address 161 it leaves 162, and
the next step faults. -/
def Obligations.NopOnlyAdvances : Prop :=
  ∀ (opnd : Int) (s : State),
    (-364 ≤ opnd ∧ opnd ≤ 364 → decode (Word.ofInt (-5832 + opnd)) = .nop opnd) ∧
    ∃ t, exec (.nop opnd) s = .next t ∧ t = { s with C := Word.ofInt (s.C.val + 1) } ∧
      (s.C.val = 161 → t.C.val = 162 ∧ (s.RUN = true → engineStep t = (.fault .addressFault, t)))

/-- A fetched Word with opcode value −13, 0 or 13 and no other stops the step with DecodeError and the
state unchanged; the meanings of the three undefined rows are that stop on every path
(41_execution_cycle.md section 2, 60_exceptions.md section 1; the values are decision D4). -/
def Obligations.UndefinedOpcodesRaiseDecodeError : Prop :=
  (∀ (n : Int) (s : State), exec (.undefNnn n) s = .fault .decodeError ∧
    exec (.undefOoo n) s = .fault .decodeError ∧ exec (.undefPpp n) s = .fault .decodeError) ∧
  (∀ s : State, s.RUN = true → 0 ≤ s.C.val ∧ s.C.val ≤ 161 →
    (engineStep s = (.fault .decodeError, s) ↔
      (s.mem.read s.C.val.toNat).opcField = -13 ∨ (s.mem.read s.C.val.toNat).opcField = 0 ∨
      (s.mem.read s.C.val.toNat).opcField = 13))

/-! ### The assembler's first pass -/

/-- What pass 1 does with a line. A label already bound is DuplicateLabel; otherwise it is bound to the
counter as it was before the line. Then a line with nothing more changes nothing else, ORG sets the counter
and emits nothing, and an emitting line emits at the counter and advances it by one, or is AddressOutOfRange
or AddressCollision. The counter starts at 0, and the lines are taken in order (47_assembler.md section 3;
decisions D24, D25). -/
def Obligations.PassOneFollowsTheLocationCounter : Prop :=
  Pass1.start.counter = 0 ∧
  (∀ (line : SourceLine) (lines : List SourceLine) (p q : Pass1),
    p.statement line (tokens line.text) = .ok q → pass1 (line :: lines) p = pass1 lines q) ∧
  (∀ (p : Pass1) (line : SourceLine) (ts rest : List (List Char)) (label : Option (List Char)),
    splitLabel ts = .ok (label, rest) →
    (∀ name a, label = some name → lookupLabel name p.labels = some a →
      p.statement line ts = .error .duplicateLabel) ∧
    ((∀ name, label = some name → lookupLabel name p.labels = none) →
      ∀ labels, labels = p.labels ++ label.toList.map (fun name => (name, p.counter)) →
      (parseRest rest = .ok .nothing → p.statement line ts = .ok { p with labels := labels }) ∧
      (∀ n, parseRest rest = .ok (.org n) →
        p.statement line ts = .ok { p with counter := n, labels := labels }) ∧
      (∀ item, parseRest rest = .ok (.emit item) →
        (p.counter < 0 ∨ 161 < p.counter → p.statement line ts = .error .addressOutOfRange) ∧
        (0 ≤ p.counter ∧ p.counter ≤ 161 →
          ((∃ e ∈ p.emissions, e.addr = p.counter) → p.statement line ts = .error .addressCollision) ∧
          ((∀ e ∈ p.emissions, e.addr ≠ p.counter) → p.statement line ts = .ok
            { counter := p.counter + 1
              labels := labels
              emissions := p.emissions ++ [{ addr := p.counter, item := item, line := line }] })))))
end

