-- ==== Sys2Proof/Laws/Memory.lean ====
section
/-! SUPPORT. What memory operations do: a read after a write (spec 20_memory.md R54), and the canonical
form, which reset has and every operation keeps (log entry 3). -/

namespace Sys2Proof.Machine

theorem readCells_eraseCell_same (l : List (Nat × Word)) (a : Nat) :
    readCells (eraseCell l a) a = Memory.unlisted := by
  induction l with
  | nil => rfl
  | cons c l ih =>
    by_cases h : c.1 = a
    · simpa [eraseCell, h] using ih
    · simpa [eraseCell, readCells, h] using ih

theorem readCells_eraseCell_other (l : List (Nat × Word)) {a b : Nat} (hne : b ≠ a) :
    readCells (eraseCell l a) b = readCells l b := by
  induction l with
  | nil => rfl
  | cons c l ih =>
    by_cases h : c.1 = a
    · have hb : ¬ c.1 = b := by omega
      simp only [eraseCell, readCells, if_pos h, if_neg hb]
      exact ih
    · simp only [eraseCell, readCells, if_neg h, ih]

theorem readCells_insertCell_other (l : List (Nat × Word)) {a b : Nat} (w : Word) (hne : b ≠ a) :
    readCells (insertCell l a w) b = readCells l b := by
  have hab : ¬ a = b := fun h => hne h.symm
  induction l with
  | nil => simp only [insertCell, readCells, if_neg hab]
  | cons c l ih =>
    by_cases h : a < c.1
    · simp only [insertCell, readCells, if_pos h, if_neg hab]
    · simp only [insertCell, readCells, if_neg h, ih]

/-- An entry for `a` put into a list that has none is what `a` reads as. -/
theorem readCells_insertCell_erased (l : List (Nat × Word)) (a : Nat) (w : Word) :
    readCells (insertCell (eraseCell l a) a w) a = w := by
  induction l with
  | nil => simp only [eraseCell, insertCell, readCells, if_true]
  | cons c l ih =>
    by_cases h : c.1 = a
    · simpa [eraseCell, h] using ih
    · by_cases hlt : a < c.1
      · simp only [eraseCell, insertCell, readCells, if_neg h, if_pos hlt, if_true]
      · simp only [eraseCell, insertCell, readCells, if_neg h, if_neg hlt, ih]

/-- A read of the cell just written gives the Word written (R54). -/
@[simp] theorem Memory.read_write_same (m : Memory) (a : Nat) (w : Word) :
    (m.write a w).read a = w := by
  unfold Memory.write Memory.read
  by_cases h : w = Memory.unlisted
  · rw [h]
    exact readCells_eraseCell_same m.cells a
  · simp only [if_neg h, readCells_insertCell_erased]

/-- A write leaves every other cell alone (R54). -/
theorem Memory.read_write_other (m : Memory) {a b : Nat} (w : Word) (hne : b ≠ a) :
    (m.write a w).read b = m.read b := by
  unfold Memory.write Memory.read
  by_cases h : w = Memory.unlisted
  · simp only [if_pos h, readCells_eraseCell_other m.cells hne]
  · simp only [if_neg h, readCells_insertCell_other _ w hne, readCells_eraseCell_other m.cells hne]

/-- The canonical form of a list with a first cell, unfolded once. -/
theorem cellsWf_cons (lo a : Nat) (w : Word) (l : List (Nat × Word)) :
    cellsWf lo ((a, w) :: l) = true ↔
      lo ≤ a ∧ a < Config.memCells ∧ w ≠ Memory.unlisted ∧ cellsWf (a + 1) l = true := by
  simp only [cellsWf, Bool.and_eq_true, decide_eq_true_eq, and_assoc]

theorem cellsWf_mono {lo lo' : Nat} (hle : lo' ≤ lo) {l : List (Nat × Word)}
    (h : cellsWf lo l = true) : cellsWf lo' l = true := by
  cases l with
  | nil => rfl
  | cons c l =>
    obtain ⟨h1, h2⟩ := (cellsWf_cons lo c.1 c.2 l).1 h
    exact (cellsWf_cons lo' c.1 c.2 l).2 ⟨by omega, h2⟩

theorem cellsWf_eraseCell {l : List (Nat × Word)} {lo : Nat} (a : Nat) (h : cellsWf lo l = true) :
    cellsWf lo (eraseCell l a) = true := by
  induction l generalizing lo with
  | nil => rfl
  | cons c l ih =>
    obtain ⟨h1, h2, h3, h4⟩ := (cellsWf_cons lo c.1 c.2 l).1 h
    by_cases hc : c.1 = a
    · have := cellsWf_mono (by omega : lo ≤ c.1 + 1) (ih h4)
      simpa [eraseCell, hc] using this
    · have := (cellsWf_cons lo c.1 c.2 (eraseCell l a)).2 ⟨h1, h2, h3, ih h4⟩
      simpa [eraseCell, hc] using this

/-- No cell of the list has address `a`. -/
theorem mem_eraseCell_ne (l : List (Nat × Word)) (a : Nat) : ∀ c ∈ eraseCell l a, c.1 ≠ a := by
  induction l with
  | nil => intro c hc; cases hc
  | cons d l ih =>
    intro c hc
    by_cases hd : d.1 = a
    · exact ih c (by simpa [eraseCell, hd] using hc)
    · simp only [eraseCell, if_neg hd, List.mem_cons] at hc
      rcases hc with rfl | hc
      · exact hd
      · exact ih c hc

theorem cellsWf_insertCell {l : List (Nat × Word)} {lo a : Nat} {w : Word} (hlo : lo ≤ a)
    (ha : a < Config.memCells) (hw : w ≠ Memory.unlisted) (hne : ∀ c ∈ l, c.1 ≠ a)
    (h : cellsWf lo l = true) : cellsWf lo (insertCell l a w) = true := by
  induction l generalizing lo with
  | nil => exact (cellsWf_cons lo a w []).2 ⟨hlo, ha, hw, rfl⟩
  | cons c l ih =>
    obtain ⟨h1, h2, h3, h4⟩ := (cellsWf_cons lo c.1 c.2 l).1 h
    have hca : c.1 ≠ a := hne c (by simp)
    by_cases hlt : a < c.1
    · have := (cellsWf_cons lo a w (c :: l)).2
        ⟨hlo, ha, hw, (cellsWf_cons (a + 1) c.1 c.2 l).2 ⟨by omega, h2, h3, h4⟩⟩
      simpa [insertCell, hlt] using this
    · have := (cellsWf_cons lo c.1 c.2 (insertCell l a w)).2
        ⟨h1, h2, h3, ih (by omega) (fun d hd => hne d (by simp [hd])) h4⟩
      simpa [insertCell, hlt] using this

/-- A write to a cell keeps the canonical form. -/
theorem Memory.wf_write {m : Memory} {a : Nat} (w : Word) (ha : a < Config.memCells)
    (h : m.wf = true) : (m.write a w).wf = true := by
  unfold Memory.write Memory.wf at *
  by_cases hw : w = Memory.unlisted
  · simpa [if_pos hw] using cellsWf_eraseCell a h
  · simpa [if_neg hw] using
      cellsWf_insertCell (Nat.zero_le a) ha hw (mem_eraseCell_ne m.cells a) (cellsWf_eraseCell a h)

/-- Memory after reset is in canonical form. -/
theorem State.reset_mem_wf : State.reset.mem.wf = true := rfl

/-- Loading cells at valid addresses keeps the canonical form. -/
theorem loadCells_wf {cells : List (Int × Word)} {m : Memory}
    (hc : ∀ c ∈ cells, validAddress c.1 = true) (h : m.wf = true) : (loadCells cells m).wf = true := by
  induction cells generalizing m with
  | nil => exact h
  | cons c cells ih =>
    have hv := hc c (by simp)
    rw [validAddress, Bool.and_eq_true, decide_eq_true_eq, decide_eq_true_eq] at hv
    have ha : c.1.toNat < Config.memCells := by omega
    exact ih (fun d hd => hc d (by simp [hd])) (Memory.wf_write c.2 ha h)

end Sys2Proof.Machine
end

