-- ==== Sys2Proof/Laws/Numeral.lean ====
section
/-! SUPPORT. What the converter and the ALU do, one lemma per operation: bounds and uniqueness of values,
the Word of an integer, the sum and carry of the adder. -/

namespace Sys2Proof

/-- A trit's value lies in −1 to 1. -/
theorem Trit.toInt_bounds (t : Trit) : -1 ≤ t.toInt ∧ t.toInt ≤ 1 := by
  cases t <;> decide

/-- Trits of equal value are equal. -/
theorem Trit.toInt_injective {a b : Trit} (h : a.toInt = b.toInt) : a = b := by
  cases a <;> cases b <;> first | rfl | exact absurd h (by decide)

@[simp] theorem Trit.toInt_neg (t : Trit) : t.neg.toInt = -t.toInt := by
  cases t <;> rfl

@[simp] theorem Trit.neg_neg (t : Trit) : t.neg.neg = t := by
  cases t <;> rfl

/-- A Word's value lies in −9841 to 9841 (R20). -/
theorem Word.val_bounds (w : Word) : -9841 ≤ w.val ∧ w.val ≤ 9841 := by
  have h8 := w.t8.toInt_bounds
  have h7 := w.t7.toInt_bounds
  have h6 := w.t6.toInt_bounds
  have h5 := w.t5.toInt_bounds
  have h4 := w.t4.toInt_bounds
  have h3 := w.t3.toInt_bounds
  have h2 := w.t2.toInt_bounds
  have h1 := w.t1.toInt_bounds
  have h0 := w.t0.toInt_bounds
  unfold Word.val
  omega

/-- Words of equal value are equal (R20). -/
theorem Word.val_injective {v w : Word} (h : v.val = w.val) : v = w := by
  cases v with
  | mk a8 a7 a6 a5 a4 a3 a2 a1 a0 =>
  cases w with
  | mk b8 b7 b6 b5 b4 b3 b2 b1 b0 =>
  have hb : ∀ t : Trit, -1 ≤ t.toInt ∧ t.toInt ≤ 1 := Trit.toInt_bounds
  have := hb a8; have := hb a7; have := hb a6; have := hb a5; have := hb a4
  have := hb a3; have := hb a2; have := hb a1; have := hb a0
  have := hb b8; have := hb b7; have := hb b6; have := hb b5; have := hb b4
  have := hb b3; have := hb b2; have := hb b1; have := hb b0
  simp only [Word.val] at h
  have e0 : a0.toInt = b0.toInt := by omega
  have e1 : a1.toInt = b1.toInt := by omega
  have e2 : a2.toInt = b2.toInt := by omega
  have e3 : a3.toInt = b3.toInt := by omega
  have e4 : a4.toInt = b4.toInt := by omega
  have e5 : a5.toInt = b5.toInt := by omega
  have e6 : a6.toInt = b6.toInt := by omega
  have e7 : a7.toInt = b7.toInt := by omega
  have e8 : a8.toInt = b8.toInt := by omega
  rw [Trit.toInt_injective e0, Trit.toInt_injective e1, Trit.toInt_injective e2,
    Trit.toInt_injective e3, Trit.toInt_injective e4, Trit.toInt_injective e5,
    Trit.toInt_injective e6, Trit.toInt_injective e7, Trit.toInt_injective e8]

/-- The lowest trit and the rest make the integer up (R104). -/
theorem lowTrit_dropTrit (n : Int) : n = (lowTrit n).toInt + 3 * dropTrit n := by
  unfold dropTrit lowTrit
  split
  · simp only [Trit.toInt]; omega
  · split
    · simp only [Trit.toInt]; omega
    · simp only [Trit.toInt]; omega

/-- `word(n)` has the value `n` brought into −9841 to 9841 by a multiple of 19683 (R105). -/
theorem Word.val_ofInt_bmod (n : Int) : (Word.ofInt n).val = bmod n Config.wordMod := by
  have hb := Word.val_bounds (Word.ofInt n)
  have e0 := lowTrit_dropTrit n
  have e1 := lowTrit_dropTrit (dropTrits 1 n)
  have e2 := lowTrit_dropTrit (dropTrits 2 n)
  have e3 := lowTrit_dropTrit (dropTrits 3 n)
  have e4 := lowTrit_dropTrit (dropTrits 4 n)
  have e5 := lowTrit_dropTrit (dropTrits 5 n)
  have e6 := lowTrit_dropTrit (dropTrits 6 n)
  have e7 := lowTrit_dropTrit (dropTrits 7 n)
  have e8 := lowTrit_dropTrit (dropTrits 8 n)
  simp only [Word.ofInt, Word.ofTrits, Word.val, digit, dropTrits] at *
  unfold bmod Config.wordMod
  omega

/-- `word(n)` has the value `n` where `n` is in range (R11, R101). -/
theorem Word.val_ofInt {n : Int} (h : -9841 ≤ n ∧ n ≤ 9841) : (Word.ofInt n).val = n := by
  rw [Word.val_ofInt_bmod]
  unfold bmod Config.wordMod
  omega

/-- `word(val(w)) = w` (R103). -/
@[simp] theorem Word.ofInt_val (w : Word) : Word.ofInt w.val = w :=
  Word.val_injective (Word.val_ofInt (Word.val_bounds w))

/-- The all-`O` Word has value 0, and no other Word has (R20). -/
theorem Word.val_eq_zero_iff (w : Word) : w.val = 0 ↔ w = Word.zero :=
  ⟨fun h => Word.val_injective (h.trans rfl), fun h => by rw [h]; rfl⟩

/-- The column identity of the adder: `t = s + 3c` (R107). -/
theorem addTrit_column (a b c : Trit) :
    a.toInt + b.toInt + c.toInt = (addTrit a b c).1.toInt + 3 * (addTrit a b c).2.toInt := by
  cases a <;> cases b <;> cases c <;> rfl

/-- The trits of a Word made from a function are the function's values at positions 0 to 8. -/
theorem Word.trit_ofTrits (f : Nat → Trit) {i : Nat} (h : i ≤ 8) : (Word.ofTrits f).trit i = f i := by
  interval_cases i <;> rfl

end Sys2Proof
end

