-- ==== Sys2Proof/Laws/State.lean ====
section
/-! SUPPORT. Every field after every update of State: one lemma each, true by `rfl` (for `advance`, `jumpTo`,
`accumulate` and `jumpIf`, by the lemmas of the updates they are made of). -/

namespace Sys2Proof.Machine

@[simp] theorem State.setS_mem (s : State) (w : Word) : (s.setS w).mem = s.mem := rfl
@[simp] theorem State.setS_S (s : State) (w : Word) : (s.setS w).S = w := rfl
@[simp] theorem State.setS_R (s : State) (w : Word) : (s.setS w).R = s.R := rfl
@[simp] theorem State.setS_F (s : State) (w : Word) : (s.setS w).F = s.F := rfl
@[simp] theorem State.setS_C (s : State) (w : Word) : (s.setS w).C = s.C := rfl
@[simp] theorem State.setS_omega (s : State) (w : Word) : (s.setS w).omega = signLatch w := rfl
@[simp] theorem State.setS_V (s : State) (w : Word) : (s.setS w).V = s.V := rfl
@[simp] theorem State.setS_RUN (s : State) (w : Word) : (s.setS w).RUN = s.RUN := rfl

@[simp] theorem State.setR_mem (s : State) (w : Word) : (s.setR w).mem = s.mem := rfl
@[simp] theorem State.setR_S (s : State) (w : Word) : (s.setR w).S = s.S := rfl
@[simp] theorem State.setR_R (s : State) (w : Word) : (s.setR w).R = w := rfl
@[simp] theorem State.setR_F (s : State) (w : Word) : (s.setR w).F = s.F := rfl
@[simp] theorem State.setR_C (s : State) (w : Word) : (s.setR w).C = s.C := rfl
@[simp] theorem State.setR_omega (s : State) (w : Word) : (s.setR w).omega = s.omega := rfl
@[simp] theorem State.setR_V (s : State) (w : Word) : (s.setR w).V = s.V := rfl
@[simp] theorem State.setR_RUN (s : State) (w : Word) : (s.setR w).RUN = s.RUN := rfl

@[simp] theorem State.setF_mem (s : State) (w : Word) : (s.setF w).mem = s.mem := rfl
@[simp] theorem State.setF_S (s : State) (w : Word) : (s.setF w).S = s.S := rfl
@[simp] theorem State.setF_R (s : State) (w : Word) : (s.setF w).R = s.R := rfl
@[simp] theorem State.setF_F (s : State) (w : Word) : (s.setF w).F = w := rfl
@[simp] theorem State.setF_C (s : State) (w : Word) : (s.setF w).C = s.C := rfl
@[simp] theorem State.setF_omega (s : State) (w : Word) : (s.setF w).omega = s.omega := rfl
@[simp] theorem State.setF_V (s : State) (w : Word) : (s.setF w).V = s.V := rfl
@[simp] theorem State.setF_RUN (s : State) (w : Word) : (s.setF w).RUN = s.RUN := rfl

@[simp] theorem State.setC_mem (s : State) (w : Word) : (s.setC w).mem = s.mem := rfl
@[simp] theorem State.setC_S (s : State) (w : Word) : (s.setC w).S = s.S := rfl
@[simp] theorem State.setC_R (s : State) (w : Word) : (s.setC w).R = s.R := rfl
@[simp] theorem State.setC_F (s : State) (w : Word) : (s.setC w).F = s.F := rfl
@[simp] theorem State.setC_C (s : State) (w : Word) : (s.setC w).C = w := rfl
@[simp] theorem State.setC_omega (s : State) (w : Word) : (s.setC w).omega = s.omega := rfl
@[simp] theorem State.setC_V (s : State) (w : Word) : (s.setC w).V = s.V := rfl
@[simp] theorem State.setC_RUN (s : State) (w : Word) : (s.setC w).RUN = s.RUN := rfl

@[simp] theorem State.noteCarry_mem (s : State) (c : Trit) : (s.noteCarry c).mem = s.mem := rfl
@[simp] theorem State.noteCarry_S (s : State) (c : Trit) : (s.noteCarry c).S = s.S := rfl
@[simp] theorem State.noteCarry_R (s : State) (c : Trit) : (s.noteCarry c).R = s.R := rfl
@[simp] theorem State.noteCarry_F (s : State) (c : Trit) : (s.noteCarry c).F = s.F := rfl
@[simp] theorem State.noteCarry_C (s : State) (c : Trit) : (s.noteCarry c).C = s.C := rfl
@[simp] theorem State.noteCarry_omega (s : State) (c : Trit) : (s.noteCarry c).omega = s.omega := rfl
@[simp] theorem State.noteCarry_V (s : State) (c : Trit) : (s.noteCarry c).V = stickyOverflow s.V c := rfl
@[simp] theorem State.noteCarry_RUN (s : State) (c : Trit) : (s.noteCarry c).RUN = s.RUN := rfl

@[simp] theorem State.halt_mem (s : State) : s.halt.mem = s.mem := rfl
@[simp] theorem State.halt_S (s : State) : s.halt.S = s.S := rfl
@[simp] theorem State.halt_R (s : State) : s.halt.R = s.R := rfl
@[simp] theorem State.halt_F (s : State) : s.halt.F = s.F := rfl
@[simp] theorem State.halt_C (s : State) : s.halt.C = s.C := rfl
@[simp] theorem State.halt_omega (s : State) : s.halt.omega = s.omega := rfl
@[simp] theorem State.halt_V (s : State) : s.halt.V = s.V := rfl
@[simp] theorem State.halt_RUN (s : State) : s.halt.RUN = false := rfl

@[simp] theorem State.store_mem (s : State) (a : Nat) (w : Word) : (s.store a w).mem = s.mem.write a w := rfl
@[simp] theorem State.store_S (s : State) (a : Nat) (w : Word) : (s.store a w).S = s.S := rfl
@[simp] theorem State.store_R (s : State) (a : Nat) (w : Word) : (s.store a w).R = s.R := rfl
@[simp] theorem State.store_F (s : State) (a : Nat) (w : Word) : (s.store a w).F = s.F := rfl
@[simp] theorem State.store_C (s : State) (a : Nat) (w : Word) : (s.store a w).C = s.C := rfl
@[simp] theorem State.store_omega (s : State) (a : Nat) (w : Word) : (s.store a w).omega = s.omega := rfl
@[simp] theorem State.store_V (s : State) (a : Nat) (w : Word) : (s.store a w).V = s.V := rfl
@[simp] theorem State.store_RUN (s : State) (a : Nat) (w : Word) : (s.store a w).RUN = s.RUN := rfl

@[simp] theorem State.advance_mem (s : State) : s.advance.mem = s.mem :=
  State.setC_mem s _
@[simp] theorem State.advance_S (s : State) : s.advance.S = s.S :=
  State.setC_S s _
@[simp] theorem State.advance_R (s : State) : s.advance.R = s.R :=
  State.setC_R s _
@[simp] theorem State.advance_F (s : State) : s.advance.F = s.F :=
  State.setC_F s _
@[simp] theorem State.advance_C (s : State) : s.advance.C = Word.ofInt (s.C.val + 1) :=
  State.setC_C s _
@[simp] theorem State.advance_omega (s : State) : s.advance.omega = s.omega :=
  State.setC_omega s _
@[simp] theorem State.advance_V (s : State) : s.advance.V = s.V :=
  State.setC_V s _
@[simp] theorem State.advance_RUN (s : State) : s.advance.RUN = s.RUN :=
  State.setC_RUN s _

@[simp] theorem State.jumpTo_mem (s : State) (t : Int) : (s.jumpTo t).mem = s.mem :=
  State.setC_mem s _
@[simp] theorem State.jumpTo_S (s : State) (t : Int) : (s.jumpTo t).S = s.S :=
  State.setC_S s _
@[simp] theorem State.jumpTo_R (s : State) (t : Int) : (s.jumpTo t).R = s.R :=
  State.setC_R s _
@[simp] theorem State.jumpTo_F (s : State) (t : Int) : (s.jumpTo t).F = s.F :=
  State.setC_F s _
@[simp] theorem State.jumpTo_C (s : State) (t : Int) : (s.jumpTo t).C = Word.ofInt t :=
  State.setC_C s _
@[simp] theorem State.jumpTo_omega (s : State) (t : Int) : (s.jumpTo t).omega = s.omega :=
  State.setC_omega s _
@[simp] theorem State.jumpTo_V (s : State) (t : Int) : (s.jumpTo t).V = s.V :=
  State.setC_V s _
@[simp] theorem State.jumpTo_RUN (s : State) (t : Int) : (s.jumpTo t).RUN = s.RUN :=
  State.setC_RUN s _

@[simp] theorem accumulate_mem (w : Word) (s : State) : (accumulate w s).mem = s.mem := by
  simp only [accumulate, State.noteCarry_mem, State.setS_mem]
@[simp] theorem accumulate_S (w : Word) (s : State) : (accumulate w s).S = (s.S.add w).1 := by
  simp only [accumulate, State.noteCarry_S, State.setS_S]
@[simp] theorem accumulate_R (w : Word) (s : State) : (accumulate w s).R = s.R := by
  simp only [accumulate, State.noteCarry_R, State.setS_R]
@[simp] theorem accumulate_F (w : Word) (s : State) : (accumulate w s).F = s.F := by
  simp only [accumulate, State.noteCarry_F, State.setS_F]
@[simp] theorem accumulate_C (w : Word) (s : State) : (accumulate w s).C = s.C := by
  simp only [accumulate, State.noteCarry_C, State.setS_C]
@[simp] theorem accumulate_omega (w : Word) (s : State) : (accumulate w s).omega = signLatch (s.S.add w).1 := by
  simp only [accumulate, State.noteCarry_omega, State.setS_omega]
@[simp] theorem accumulate_V (w : Word) (s : State) : (accumulate w s).V = stickyOverflow s.V (s.S.add w).2 := by
  simp only [accumulate, State.noteCarry_V, State.setS_V]
@[simp] theorem accumulate_RUN (w : Word) (s : State) : (accumulate w s).RUN = s.RUN := by
  simp only [accumulate, State.noteCarry_RUN, State.setS_RUN]

@[simp] theorem jumpIf_mem (b : Bool) (t : Int) (s : State) : (jumpIf b t s).mem = s.mem := by
  cases b
  · exact State.advance_mem s
  · exact State.jumpTo_mem s t
@[simp] theorem jumpIf_S (b : Bool) (t : Int) (s : State) : (jumpIf b t s).S = s.S := by
  cases b
  · exact State.advance_S s
  · exact State.jumpTo_S s t
@[simp] theorem jumpIf_R (b : Bool) (t : Int) (s : State) : (jumpIf b t s).R = s.R := by
  cases b
  · exact State.advance_R s
  · exact State.jumpTo_R s t
@[simp] theorem jumpIf_F (b : Bool) (t : Int) (s : State) : (jumpIf b t s).F = s.F := by
  cases b
  · exact State.advance_F s
  · exact State.jumpTo_F s t
@[simp] theorem jumpIf_C (b : Bool) (t : Int) (s : State) :
    (jumpIf b t s).C = if b then Word.ofInt t else Word.ofInt (s.C.val + 1) := by
  cases b
  · exact State.advance_C s
  · exact State.jumpTo_C s t
@[simp] theorem jumpIf_omega (b : Bool) (t : Int) (s : State) : (jumpIf b t s).omega = s.omega := by
  cases b
  · exact State.advance_omega s
  · exact State.jumpTo_omega s t
@[simp] theorem jumpIf_V (b : Bool) (t : Int) (s : State) : (jumpIf b t s).V = s.V := by
  cases b
  · exact State.advance_V s
  · exact State.jumpTo_V s t
@[simp] theorem jumpIf_RUN (b : Bool) (t : Int) (s : State) : (jumpIf b t s).RUN = s.RUN := by
  cases b
  · exact State.advance_RUN s
  · exact State.jumpTo_RUN s t

@[simp] theorem State.load_def (s : State) (a : Nat) : s.load a = s.mem.read a := rfl

/-- After a write of `S` the latch is the sign of the new `S` (R26). -/
theorem State.setS_latch (s : State) (w : Word) : (s.setS w).omega = (s.setS w).S.sign := rfl

end Sys2Proof.Machine
end

