-- ==== Sys2Proof/Laws/Ops.lean ====
section
/-! SUPPORT. What the shared operations can answer, once each: the operand checks, the fetch, raising a
fault, the cycle and the engine's step. -/

namespace Sys2Proof.Machine

/-- A raised fault is no next state. -/
theorem raise_ne_next (k : Fault) (t : State) : raise k ≠ .next t := fun h => by cases h

/-- A raised fault is that fault and no other. -/
@[simp] theorem raise_eq_fault (k j : Fault) : raise k = .fault j ↔ k = j :=
  ⟨fun h => by cases h; rfl, fun h => by rw [h]; rfl⟩

/-- A raised fault is no refusal. -/
theorem raise_ne_refused (k : Fault) (r : Refusal) : raise k ≠ .refused r := fun h => by cases h

/-- A valid address is 0 to 161. -/
theorem validAddress_iff (a : Int) : validAddress a = true ↔ 0 ≤ a ∧ a ≤ 161 := by
  rw [validAddress, Bool.and_eq_true, decide_eq_true_eq, decide_eq_true_eq]
  unfold Config.memCells
  omega

/-- Any other integer is no valid address. -/
theorem validAddress_false_iff (a : Int) : validAddress a = false ↔ a < 0 ∨ 161 < a := by
  rw [← Bool.not_eq_true, validAddress_iff]
  omega

/-- A valid address as a natural number is that of a cell. -/
theorem validAddress_toNat {a : Int} (h : validAddress a = true) :
    a.toNat < Config.memCells ∧ ((a.toNat : Nat) : Int) = a := by
  have := (validAddress_iff a).1 h
  unfold Config.memCells
  omega

/-- Class A with a valid operand runs the body at that address. -/
theorem direct_valid {opnd : Int} (h : validAddress opnd = true) (body : Nat → Result) :
    direct opnd body = body opnd.toNat := by
  unfold direct
  rw [h]

/-- Class A with any other operand raises AddressFault. -/
theorem direct_invalid {opnd : Int} (h : validAddress opnd = false) (body : Nat → Result) :
    direct opnd body = raise .addressFault := by
  unfold direct
  rw [h]

/-- Class A answers a next state only through its body at a valid address. -/
theorem direct_next {opnd : Int} {body : Nat → Result} {t : State} (h : direct opnd body = .next t) :
    validAddress opnd = true ∧ body opnd.toNat = .next t := by
  cases hv : validAddress opnd with
  | true => exact ⟨rfl, by rw [← direct_valid hv body]; exact h⟩
  | false =>
    rw [direct_invalid hv] at h
    exact absurd h (raise_ne_next _ _)

/-- Class X with a valid effective address runs the body there. -/
theorem indexed_valid {opnd : Int} {s : State} (h : validAddress (effectiveAddress opnd s) = true)
    (body : Nat → Result) : indexed opnd s body = body (effectiveAddress opnd s).toNat := by
  unfold indexed
  rw [h]

/-- Class X with any other effective address raises AddressFault. -/
theorem indexed_invalid {opnd : Int} {s : State} (h : validAddress (effectiveAddress opnd s) = false)
    (body : Nat → Result) : indexed opnd s body = raise .addressFault := by
  unfold indexed
  rw [h]

/-- Class X answers a next state only through its body at a valid effective address. -/
theorem indexed_next {opnd : Int} {s : State} {body : Nat → Result} {t : State}
    (h : indexed opnd s body = .next t) :
    validAddress (effectiveAddress opnd s) = true ∧ body (effectiveAddress opnd s).toNat = .next t := by
  cases hv : validAddress (effectiveAddress opnd s) with
  | true => exact ⟨rfl, by rw [← indexed_valid hv body]; exact h⟩
  | false =>
    rw [indexed_invalid hv] at h
    exact absurd h (raise_ne_next _ _)

/-- Class J with a valid target runs the body. -/
theorem target_valid {opnd : Int} (h : validAddress opnd = true) (body : Int → Result) :
    target opnd body = body opnd := by
  unfold target
  rw [h]

/-- Class J with any other target raises AddressFault. -/
theorem target_invalid {opnd : Int} (h : validAddress opnd = false) (body : Int → Result) :
    target opnd body = raise .addressFault := by
  unfold target
  rw [h]

/-- Class J answers a next state only through its body at a valid target. -/
theorem target_next {opnd : Int} {body : Int → Result} {t : State} (h : target opnd body = .next t) :
    validAddress opnd = true ∧ body opnd = .next t := by
  cases hv : validAddress opnd with
  | true => exact ⟨rfl, by rw [← target_valid hv body]; exact h⟩
  | false =>
    rw [target_invalid hv] at h
    exact absurd h (raise_ne_next _ _)

/-- The fetch reads the cell at `C` where `C` is a valid address (R133). -/
theorem fetch_valid {s : State} (h : validAddress s.C.val = true) : fetch s = .ok (s.mem.read s.C.val.toNat) := by
  unfold fetch
  rw [h]
  rfl

/-- The fetch raises AddressFault where `C` is no valid address (R133). -/
theorem fetch_invalid {s : State} (h : validAddress s.C.val = false) : fetch s = .error .addressFault := by
  unfold fetch
  rw [h]

/-- What a step answering a next state was: a halted engine's no-op, or an instruction fetched at a valid
address and executed. -/
theorem step_next {s t : State} (h : step s = .next t) :
    (s.RUN = false ∧ t = s) ∨
      (s.RUN = true ∧ validAddress s.C.val = true ∧
        exec (decode (s.mem.read s.C.val.toNat)) s = .next t) := by
  unfold step cycle at h
  cases hr : s.RUN with
  | false =>
    rw [hr] at h
    left
    cases h
    exact ⟨rfl, rfl⟩
  | true =>
    rw [hr] at h
    right
    cases hv : validAddress s.C.val with
    | true =>
      simp only [fetchDecodeExecute, fetch_valid hv] at h
      exact ⟨rfl, rfl, h⟩
    | false =>
      simp only [fetchDecodeExecute, fetch_invalid hv] at h
      exact absurd h (raise_ne_next _ _)

/-- A halted engine's step is the no-op (R132). -/
theorem engineStep_halted {s : State} (h : s.RUN = false) : engineStep s = (.halted, s) := by
  unfold engineStep
  rw [h]

/-- A completed step's status and state (R138). -/
theorem engineStep_next {s t : State} (hr : s.RUN = true) (h : step s = .next t) :
    engineStep s = (if t.RUN then .continuing else .halted, t) := by
  unfold engineStep
  rw [hr, h]

/-- A faulted step's status; the state is as before (R137). -/
theorem engineStep_fault {s : State} {k : Fault} (hr : s.RUN = true) (h : step s = .fault k) :
    engineStep s = (.fault k, s) := by
  unfold engineStep
  rw [hr, h]

/-- `load_image` of a loadable image (R141). -/
theorem loadImage_loadable {img : Image} (h : img.loadable = true) (s : State) :
    loadImage img s = .ok { s with mem := loadCells img.cells s.mem, C := Word.ofInt img.entry } := by
  unfold loadImage
  rw [h]

/-- `load_image` of any other image is refused (R141). -/
theorem loadImage_refused {img : Image} (h : img.loadable = false) (s : State) :
    loadImage img s = .error .addressFault := by
  unfold loadImage
  rw [h]

/-- Where `load_image` answers a state, the image was loadable and the state is the loaded one (R141). -/
theorem loadImage_ok {img : Image} {s t : State} (h : loadImage img s = .ok t) :
    img.loadable = true ∧ t = { s with mem := loadCells img.cells s.mem, C := Word.ofInt img.entry } := by
  unfold loadImage at h
  cases hl : img.loadable with
  | true =>
    rw [hl] at h
    cases h
    exact ⟨rfl, rfl⟩
  | false =>
    rw [hl] at h
    cases h

end Sys2Proof.Machine
end

