-- ==== Sys2Proof/Laws/Controller.lean ====
section
/-! SUPPORT. What the controller's breakpoint test can answer, once (spec 60_exceptions.md R302, R303,
R305). -/

namespace Sys2Proof.Machine

/-- The test stops the run exactly where it is not left out, `C` is the address of a cell and that address
is in the set. -/
theorem Controller.stopsHere_iff (skip : Bool) (c : Controller) :
    c.stopsHere skip = true ↔
      skip = false ∧ (0 ≤ c.engine.C.val ∧ c.engine.C.val ≤ 161) ∧ c.engine.C.val ∈ c.breakpoints := by
  rw [Controller.stopsHere, Bool.and_eq_true, Bool.and_eq_true, validAddress_iff, decide_eq_true_eq,
    Bool.not_eq_true', and_assoc]

/-- A test left out stops nothing (R305). -/
@[simp] theorem Controller.stopsHere_skipped (c : Controller) : c.stopsHere true = false := rfl

/-- Without breakpoints nothing stops the run. -/
theorem Controller.stopsHere_empty (skip : Bool) {c : Controller} (h : c.breakpoints = []) :
    c.stopsHere skip = false := by
  rw [Controller.stopsHere, h]
  simp

/-- A call resumes exactly where the session is Stopped-at-breakpoint at the current `C` (R305). -/
theorem Controller.resumes_iff (c : Controller) :
    c.resumes = true ↔ c.session = .stoppedAtBreakpoint c.engine.C.val := by
  rw [Controller.resumes, decide_eq_true_eq]

end Sys2Proof.Machine
end

