-- ==== Sys2Proof/Laws/Decode.lean ====
section
/-! SUPPORT. The fields of a Word: their ranges, that they make the Word's value up, and that no other
pair in range does (spec 30_encoding.md R72). -/

namespace Sys2Proof

/-- A Word's value is `opc * 729 + opnd` (R72). -/
theorem Word.val_eq_fields (w : Word) : w.val = w.opcField * 729 + w.opndField := by
  unfold Word.val Word.opcField Word.opndField
  omega

/-- The opcode field lies in −13 to 13 (R71). -/
theorem Word.opcField_bounds (w : Word) : -13 ≤ w.opcField ∧ w.opcField ≤ 13 := by
  have h8 := w.t8.toInt_bounds
  have h7 := w.t7.toInt_bounds
  have h6 := w.t6.toInt_bounds
  unfold Word.opcField
  omega

/-- The operand field lies in −364 to 364 (R71). -/
theorem Word.opndField_bounds (w : Word) : -364 ≤ w.opndField ∧ w.opndField ≤ 364 := by
  have h5 := w.t5.toInt_bounds
  have h4 := w.t4.toInt_bounds
  have h3 := w.t3.toInt_bounds
  have h2 := w.t2.toInt_bounds
  have h1 := w.t1.toInt_bounds
  have h0 := w.t0.toInt_bounds
  unfold Word.opndField
  omega

/-- The fields of `word(opc * 729 + opnd)` are `opc` and `opnd`, for values in their ranges (R73). -/
theorem Word.fields_ofInt {opc opnd : Int} (ho : -13 ≤ opc ∧ opc ≤ 13)
    (hn : -364 ≤ opnd ∧ opnd ≤ 364) :
    (Word.ofInt (opc * 729 + opnd)).opcField = opc ∧ (Word.ofInt (opc * 729 + opnd)).opndField = opnd := by
  have hv := Word.val_ofInt (n := opc * 729 + opnd) (by omega)
  have hf := Word.val_eq_fields (Word.ofInt (opc * 729 + opnd))
  have h1 := Word.opcField_bounds (Word.ofInt (opc * 729 + opnd))
  have h2 := Word.opndField_bounds (Word.ofInt (opc * 729 + opnd))
  constructor <;> omega

/-- A well-formed instruction's operand fits the field. -/
theorem Instr.wf_bounds {i : Instr} (h : i.wf = true) : -364 ≤ i.opnd ∧ i.opnd ≤ 364 := by
  rw [Instr.wf, Bool.and_eq_true, decide_eq_true_eq, decide_eq_true_eq] at h
  exact h

/-- Every instruction's opcode value lies in −13 to 13 (R74, R75). -/
theorem Instr.opc_bounds (i : Instr) : -13 ≤ i.opc ∧ i.opc ≤ 13 := by
  cases i <;> simp [Instr.opc]

end Sys2Proof
end

