-- ==== Sys2Proof/Laws/Exec.lean ====
section
/-! SUPPORT. Each arm of `exec` unfolded once: the shared operation it is and what it does there. -/

namespace Sys2Proof.Machine

theorem exec_mul (opnd : Int) (s : State) : exec (.mul opnd) s =
  direct opnd fun a =>
    .next ((s.setR (mulwide s.S (s.load a)).1).setS (mulwide s.S (s.load a)).2).advance := rfl

theorem exec_sub (opnd : Int) (s : State) : exec (.sub opnd) s =
  direct opnd fun a => .next (accumulate (s.load a).negate s).advance := rfl

theorem exec_add (opnd : Int) (s : State) : exec (.add opnd) s =
  direct opnd fun a => .next (accumulate (s.load a) s).advance := rfl

theorem exec_stx (opnd : Int) (s : State) : exec (.stx opnd) s =
  indexed opnd s fun a => .next (s.store a s.S).advance := rfl

theorem exec_ldx (opnd : Int) (s : State) : exec (.ldx opnd) s =
  indexed opnd s fun a => .next (s.setS (s.load a)).advance := rfl

theorem exec_stf (opnd : Int) (s : State) : exec (.stf opnd) s =
  direct opnd fun a => .next (s.store a s.F).advance := rfl

theorem exec_ldf (opnd : Int) (s : State) : exec (.ldf opnd) s =
  direct opnd fun a => .next (s.setF (s.load a)).advance := rfl

theorem exec_str (opnd : Int) (s : State) : exec (.str opnd) s =
  direct opnd fun a => .next (s.store a s.R).advance := rfl

theorem exec_ldr (opnd : Int) (s : State) : exec (.ldr opnd) s =
  direct opnd fun a => .next (s.setR (s.load a)).advance := rfl

theorem exec_xchg (opnd : Int) (s : State) : exec (.xchg opnd) s =
  direct opnd fun a => .next ((s.store a s.S).setS (s.load a)).advance := rfl

theorem exec_sta (opnd : Int) (s : State) : exec (.sta opnd) s =
  direct opnd fun a => .next (s.store a s.S).advance := rfl

theorem exec_lda (opnd : Int) (s : State) : exec (.lda opnd) s =
  direct opnd fun a => .next (s.setS (s.load a)).advance := rfl

theorem exec_jmp (opnd : Int) (s : State) : exec (.jmp opnd) s =
  target opnd fun t => .next (s.jumpTo t) := rfl

theorem exec_jz (opnd : Int) (s : State) : exec (.jz opnd) s =
  target opnd fun t => .next (jumpIf (decide (s.omega = .O)) t s) := rfl

theorem exec_jp (opnd : Int) (s : State) : exec (.jp opnd) s =
  target opnd fun t => .next (jumpIf (decide (s.omega = .P)) t s) := rfl

theorem exec_jn (opnd : Int) (s : State) : exec (.jn opnd) s =
  target opnd fun t => .next (jumpIf (decide (s.omega = .N)) t s) := rfl

theorem exec_loop (opnd : Int) (s : State) : exec (.loop opnd) s =
  target opnd fun t =>
    .next (jumpIf (decide ((decremented s).1.val ≠ 0)) t
      ((s.setF (decremented s).1).noteCarry (decremented s).2)) := rfl

theorem exec_div (opnd : Int) (s : State) : exec (.div opnd) s =
  direct opnd fun a =>
    if (s.load a).val = 0 then raise .rangeError
    else
      .next ((s.setR (Word.ofInt (divtrunc s.S.val (s.load a).val).2)).setS
        (Word.ofInt (divtrunc s.S.val (s.load a).val).1)).advance := rfl

theorem exec_neg (opnd : Int) (s : State) : exec (.neg opnd) s =
  .next (s.setS s.S.negate).advance := rfl

theorem exec_nop (opnd : Int) (s : State) : exec (.nop opnd) s = .next s.advance := rfl

theorem exec_sha (opnd : Int) (s : State) : exec (.sha opnd) s =
  .next (s.setS (s.S.shift opnd)).advance := rfl

theorem exec_shd (opnd : Int) (s : State) : exec (.shd opnd) s =
  .next ((s.setR (shift18 s.R s.S opnd).1).setS (shift18 s.R s.S opnd).2).advance := rfl

theorem exec_xsr (opnd : Int) (s : State) : exec (.xsr opnd) s =
  .next ((s.setS s.R).setR s.S).advance := rfl

theorem exec_hlt (opnd : Int) (s : State) : exec (.hlt opnd) s = .next s.halt.advance := rfl

theorem exec_undefNnn (opnd : Int) (s : State) : exec (.undefNnn opnd) s = raise .decodeError := rfl

theorem exec_undefOoo (opnd : Int) (s : State) : exec (.undefOoo opnd) s = raise .decodeError := rfl

theorem exec_undefPpp (opnd : Int) (s : State) : exec (.undefPpp opnd) s = raise .decodeError := rfl

end Sys2Proof.Machine
end

