-- ==== Sys2Proof/Laws/PerInstr.lean ====
section
/-! SUPPORT. The family `Fields`, one lemma per constructor of Instr: the Word of a well-formed
instruction has that instruction's opcode and operand in its fields (spec 30_encoding.md R73). -/

namespace Sys2Proof.Laws.Fields

/-- Extracting the fields of the assembled Word gives back the opcode and operand values (R73). -/
def Statement (i : Instr) : Prop :=
  i.wf = true → (encode i).opcField = i.opc ∧ (encode i).opndField = i.opnd

theorem mul (n : Int) : Statement (.mul n) := fun h =>
  Word.fields_ofInt (Instr.opc_bounds _) (Instr.wf_bounds h)

theorem sub (n : Int) : Statement (.sub n) := fun h =>
  Word.fields_ofInt (Instr.opc_bounds _) (Instr.wf_bounds h)

theorem add (n : Int) : Statement (.add n) := fun h =>
  Word.fields_ofInt (Instr.opc_bounds _) (Instr.wf_bounds h)

theorem stx (n : Int) : Statement (.stx n) := fun h =>
  Word.fields_ofInt (Instr.opc_bounds _) (Instr.wf_bounds h)

theorem ldx (n : Int) : Statement (.ldx n) := fun h =>
  Word.fields_ofInt (Instr.opc_bounds _) (Instr.wf_bounds h)

theorem stf (n : Int) : Statement (.stf n) := fun h =>
  Word.fields_ofInt (Instr.opc_bounds _) (Instr.wf_bounds h)

theorem ldf (n : Int) : Statement (.ldf n) := fun h =>
  Word.fields_ofInt (Instr.opc_bounds _) (Instr.wf_bounds h)

theorem str (n : Int) : Statement (.str n) := fun h =>
  Word.fields_ofInt (Instr.opc_bounds _) (Instr.wf_bounds h)

theorem ldr (n : Int) : Statement (.ldr n) := fun h =>
  Word.fields_ofInt (Instr.opc_bounds _) (Instr.wf_bounds h)

theorem xchg (n : Int) : Statement (.xchg n) := fun h =>
  Word.fields_ofInt (Instr.opc_bounds _) (Instr.wf_bounds h)

theorem sta (n : Int) : Statement (.sta n) := fun h =>
  Word.fields_ofInt (Instr.opc_bounds _) (Instr.wf_bounds h)

theorem lda (n : Int) : Statement (.lda n) := fun h =>
  Word.fields_ofInt (Instr.opc_bounds _) (Instr.wf_bounds h)

theorem jmp (n : Int) : Statement (.jmp n) := fun h =>
  Word.fields_ofInt (Instr.opc_bounds _) (Instr.wf_bounds h)

theorem jz (n : Int) : Statement (.jz n) := fun h =>
  Word.fields_ofInt (Instr.opc_bounds _) (Instr.wf_bounds h)

theorem jp (n : Int) : Statement (.jp n) := fun h =>
  Word.fields_ofInt (Instr.opc_bounds _) (Instr.wf_bounds h)

theorem jn (n : Int) : Statement (.jn n) := fun h =>
  Word.fields_ofInt (Instr.opc_bounds _) (Instr.wf_bounds h)

theorem loop (n : Int) : Statement (.loop n) := fun h =>
  Word.fields_ofInt (Instr.opc_bounds _) (Instr.wf_bounds h)

theorem div (n : Int) : Statement (.div n) := fun h =>
  Word.fields_ofInt (Instr.opc_bounds _) (Instr.wf_bounds h)

theorem neg (n : Int) : Statement (.neg n) := fun h =>
  Word.fields_ofInt (Instr.opc_bounds _) (Instr.wf_bounds h)

theorem nop (n : Int) : Statement (.nop n) := fun h =>
  Word.fields_ofInt (Instr.opc_bounds _) (Instr.wf_bounds h)

theorem sha (n : Int) : Statement (.sha n) := fun h =>
  Word.fields_ofInt (Instr.opc_bounds _) (Instr.wf_bounds h)

theorem shd (n : Int) : Statement (.shd n) := fun h =>
  Word.fields_ofInt (Instr.opc_bounds _) (Instr.wf_bounds h)

theorem xsr (n : Int) : Statement (.xsr n) := fun h =>
  Word.fields_ofInt (Instr.opc_bounds _) (Instr.wf_bounds h)

theorem hlt (n : Int) : Statement (.hlt n) := fun h =>
  Word.fields_ofInt (Instr.opc_bounds _) (Instr.wf_bounds h)

theorem undefNnn (n : Int) : Statement (.undefNnn n) := fun h =>
  Word.fields_ofInt (Instr.opc_bounds _) (Instr.wf_bounds h)

theorem undefOoo (n : Int) : Statement (.undefOoo n) := fun h =>
  Word.fields_ofInt (Instr.opc_bounds _) (Instr.wf_bounds h)

theorem undefPpp (n : Int) : Statement (.undefPpp n) := fun h =>
  Word.fields_ofInt (Instr.opc_bounds _) (Instr.wf_bounds h)

end Sys2Proof.Laws.Fields
end

