-- ==== Sys2Proof/Tests/Slice0.lean ====
section
/-! SUPPORT. Tests whose expected values are the vectors of spec/95_test_vectors.md (the section is named at
each group), and a witness for every obligation that has hypotheses. -/

namespace Sys2Proof.Tests

open Sys2Proof Sys2Proof.Machine

/-- The next state an answer gives, if it does. -/
def nextOf : Result → Option State
  | .next t => some t
  | .fault _ => none
  | .refused _ => none

/-- The fault an answer is, if it is one. -/
def faultIn : Result → Option Fault
  | .next _ => none
  | .fault k => some k
  | .refused _ => none

/-- Whether an instruction completed. -/
def done (r : Result) : Bool := (nextOf r).isSome

/-! ### Well-formedness: an operand that the six trits cannot hold is refused (30_encoding.md R73) -/

theorem test_wf_refuses_365 : (Instr.lda 365).wf = false := by decide
theorem test_wf_refuses_minus_365 : (Instr.hlt (-365)).wf = false := by decide
theorem test_wf_accepts_the_ends : (Instr.sha 364).wf = true ∧ (Instr.sha (-364)).wf = true := by decide

/-! ### Every row of the opcode table from a Word written out trit by trit (sections 2.5 to 2.10) -/

theorem test_decode_mul : decode ⟨.P, .P, .O, .O, .O, .P, .N, .P, .N⟩ = .mul 20 ∧
    encode (.mul 20) = ⟨.P, .P, .O, .O, .O, .P, .N, .P, .N⟩ ∧
    Word.val ⟨.P, .P, .O, .O, .O, .P, .N, .P, .N⟩ = 8768 := by decide
theorem test_decode_sub : decode ⟨.P, .P, .N, .O, .O, .P, .N, .P, .N⟩ = .sub 20 ∧
    encode (.sub 20) = ⟨.P, .P, .N, .O, .O, .P, .N, .P, .N⟩ ∧
    Word.val ⟨.P, .P, .N, .O, .O, .P, .N, .P, .N⟩ = 8039 := by decide
theorem test_decode_add : decode ⟨.P, .O, .P, .O, .O, .P, .N, .P, .N⟩ = .add 20 ∧
    encode (.add 20) = ⟨.P, .O, .P, .O, .O, .P, .N, .P, .N⟩ ∧
    Word.val ⟨.P, .O, .P, .O, .O, .P, .N, .P, .N⟩ = 7310 := by decide
theorem test_decode_stx : decode ⟨.P, .O, .O, .O, .P, .P, .N, .O, .P⟩ = .stx 100 ∧
    encode (.stx 100) = ⟨.P, .O, .O, .O, .P, .P, .N, .O, .P⟩ ∧
    Word.val ⟨.P, .O, .O, .O, .P, .P, .N, .O, .P⟩ = 6661 := by decide
theorem test_decode_ldx : decode ⟨.P, .O, .N, .O, .P, .N, .P, .N, .O⟩ = .ldx 60 ∧
    encode (.ldx 60) = ⟨.P, .O, .N, .O, .P, .N, .P, .N, .O⟩ ∧
    Word.val ⟨.P, .O, .N, .O, .P, .N, .P, .N, .O⟩ = 5892 := by decide
theorem test_decode_stf : decode ⟨.P, .N, .P, .O, .P, .N, .N, .N, .N⟩ = .stf 41 ∧
    encode (.stf 41) = ⟨.P, .N, .P, .O, .P, .N, .N, .N, .N⟩ ∧
    Word.val ⟨.P, .N, .P, .O, .P, .N, .N, .N, .N⟩ = 5144 := by decide
theorem test_decode_ldf : decode ⟨.P, .N, .O, .O, .O, .P, .P, .P, .P⟩ = .ldf 40 ∧
    encode (.ldf 40) = ⟨.P, .N, .O, .O, .O, .P, .P, .P, .P⟩ ∧
    Word.val ⟨.P, .N, .O, .O, .O, .P, .P, .P, .P⟩ = 4414 := by decide
theorem test_decode_str : decode ⟨.P, .N, .N, .O, .O, .P, .O, .P, .O⟩ = .str 30 ∧
    encode (.str 30) = ⟨.P, .N, .N, .O, .O, .P, .O, .P, .O⟩ ∧
    Word.val ⟨.P, .N, .N, .O, .O, .P, .O, .P, .O⟩ = 3675 := by decide
theorem test_decode_ldr : decode ⟨.O, .P, .P, .O, .O, .P, .N, .P, .N⟩ = .ldr 20 ∧
    encode (.ldr 20) = ⟨.O, .P, .P, .O, .O, .P, .N, .P, .N⟩ ∧
    Word.val ⟨.O, .P, .P, .O, .O, .P, .N, .P, .N⟩ = 2936 := by decide
theorem test_decode_xchg : decode ⟨.O, .P, .O, .O, .O, .P, .N, .P, .N⟩ = .xchg 20 ∧
    encode (.xchg 20) = ⟨.O, .P, .O, .O, .O, .P, .N, .P, .N⟩ ∧
    Word.val ⟨.O, .P, .O, .O, .O, .P, .N, .P, .N⟩ = 2207 := by decide
theorem test_decode_sta : decode ⟨.O, .P, .N, .P, .N, .P, .P, .P, .N⟩ = .sta 200 ∧
    encode (.sta 200) = ⟨.O, .P, .N, .P, .N, .P, .P, .P, .N⟩ ∧
    Word.val ⟨.O, .P, .N, .P, .N, .P, .P, .P, .N⟩ = 1658 := by decide
theorem test_decode_lda : decode ⟨.O, .O, .P, .N, .N, .N, .N, .N, .N⟩ = .lda (-364) ∧
    encode (.lda (-364)) = ⟨.O, .O, .P, .N, .N, .N, .N, .N, .N⟩ ∧
    Word.val ⟨.O, .O, .P, .N, .N, .N, .N, .N, .N⟩ = 365 := by decide
theorem test_decode_jmp : decode ⟨.O, .O, .N, .O, .O, .P, .P, .P, .P⟩ = .jmp 40 ∧
    encode (.jmp 40) = ⟨.O, .O, .N, .O, .O, .P, .P, .P, .P⟩ ∧
    Word.val ⟨.O, .O, .N, .O, .O, .P, .P, .P, .P⟩ = -689 := by decide
theorem test_decode_jz : decode ⟨.O, .N, .P, .O, .O, .P, .P, .P, .P⟩ = .jz 40 ∧
    encode (.jz 40) = ⟨.O, .N, .P, .O, .O, .P, .P, .P, .P⟩ ∧
    Word.val ⟨.O, .N, .P, .O, .O, .P, .P, .P, .P⟩ = -1418 := by decide
theorem test_decode_jp : decode ⟨.O, .N, .O, .O, .O, .P, .P, .P, .P⟩ = .jp 40 ∧
    encode (.jp 40) = ⟨.O, .N, .O, .O, .O, .P, .P, .P, .P⟩ ∧
    Word.val ⟨.O, .N, .O, .O, .O, .P, .P, .P, .P⟩ = -2147 := by decide
theorem test_decode_jn : decode ⟨.O, .N, .N, .O, .O, .O, .O, .N, .O⟩ = .jn (-3) ∧
    encode (.jn (-3)) = ⟨.O, .N, .N, .O, .O, .O, .O, .N, .O⟩ ∧
    Word.val ⟨.O, .N, .N, .O, .O, .O, .O, .N, .O⟩ = -2919 := by decide
theorem test_decode_loop : decode ⟨.N, .P, .P, .O, .O, .P, .P, .P, .P⟩ = .loop 40 ∧
    encode (.loop 40) = ⟨.N, .P, .P, .O, .O, .P, .P, .P, .P⟩ ∧
    Word.val ⟨.N, .P, .P, .O, .O, .P, .P, .P, .P⟩ = -3605 := by decide
theorem test_decode_div : decode ⟨.N, .P, .O, .O, .O, .P, .N, .P, .N⟩ = .div 20 ∧
    encode (.div 20) = ⟨.N, .P, .O, .O, .O, .P, .N, .P, .N⟩ ∧
    Word.val ⟨.N, .P, .O, .O, .O, .P, .N, .P, .N⟩ = -4354 := by decide
theorem test_decode_neg : decode ⟨.N, .P, .N, .O, .O, .O, .O, .O, .O⟩ = .neg 0 ∧
    encode (.neg 0) = ⟨.N, .P, .N, .O, .O, .O, .O, .O, .O⟩ ∧
    Word.val ⟨.N, .P, .N, .O, .O, .O, .O, .O, .O⟩ = -5103 := by decide
theorem test_decode_nop : decode ⟨.N, .O, .P, .O, .P, .O, .O, .N, .N⟩ = .nop 77 ∧
    encode (.nop 77) = ⟨.N, .O, .P, .O, .P, .O, .O, .N, .N⟩ ∧
    Word.val ⟨.N, .O, .P, .O, .P, .O, .O, .N, .N⟩ = -5755 := by decide
theorem test_decode_sha : decode ⟨.N, .O, .O, .O, .O, .O, .N, .O, .P⟩ = .sha (-8) ∧
    encode (.sha (-8)) = ⟨.N, .O, .O, .O, .O, .O, .N, .O, .P⟩ ∧
    Word.val ⟨.N, .O, .O, .O, .O, .O, .N, .O, .P⟩ = -6569 := by decide
theorem test_decode_shd : decode ⟨.N, .O, .N, .O, .O, .P, .N, .O, .N⟩ = .shd 17 ∧
    encode (.shd 17) = ⟨.N, .O, .N, .O, .O, .P, .N, .O, .N⟩ ∧
    Word.val ⟨.N, .O, .N, .O, .O, .P, .N, .O, .N⟩ = -7273 := by decide
theorem test_decode_xsr : decode ⟨.N, .N, .P, .P, .N, .N, .N, .N, .O⟩ = .xsr 123 ∧
    encode (.xsr 123) = ⟨.N, .N, .P, .P, .N, .N, .N, .N, .O⟩ ∧
    Word.val ⟨.N, .N, .P, .P, .N, .N, .N, .N, .O⟩ = -7896 := by decide
theorem test_decode_hlt : decode ⟨.N, .N, .O, .N, .N, .N, .N, .N, .N⟩ = .hlt (-364) ∧
    encode (.hlt (-364)) = ⟨.N, .N, .O, .N, .N, .N, .N, .N, .N⟩ ∧
    Word.val ⟨.N, .N, .O, .N, .N, .N, .N, .N, .N⟩ = -9112 := by decide
theorem test_decode_undefNnn : decode ⟨.N, .N, .N, .P, .P, .P, .P, .P, .P⟩ = .undefNnn 364 ∧
    encode (.undefNnn 364) = ⟨.N, .N, .N, .P, .P, .P, .P, .P, .P⟩ ∧
    Word.val ⟨.N, .N, .N, .P, .P, .P, .P, .P, .P⟩ = -9113 := by decide
theorem test_decode_undefOoo : decode ⟨.O, .O, .O, .P, .P, .P, .P, .P, .P⟩ = .undefOoo 364 ∧
    encode (.undefOoo 364) = ⟨.O, .O, .O, .P, .P, .P, .P, .P, .P⟩ ∧
    Word.val ⟨.O, .O, .O, .P, .P, .P, .P, .P, .P⟩ = 364 := by decide
theorem test_decode_undefPpp : decode ⟨.P, .P, .P, .N, .N, .N, .N, .N, .N⟩ = .undefPpp (-364) ∧
    encode (.undefPpp (-364)) = ⟨.P, .P, .P, .N, .N, .N, .N, .N, .N⟩ ∧
    Word.val ⟨.P, .P, .P, .N, .N, .N, .N, .N, .N⟩ = 9113 := by decide

/-! ### Words given to the host interface in bits (log entry 2) -/

theorem test_table_word_positive : decodeTableWord 16 749 = some (.lda 20) := by decide
theorem test_table_word_negative : decodeTableWord 16 (65536 - 8748) = some (.hlt 0) := by decide
theorem test_table_word_refused : decodeTableWord 16 9842 = none := by decide
theorem test_fetch_word_runs : nextOf (step (State.reset.withFetchWord 16 (65536 - 5832))) =
    some (State.reset.withFetchWord 16 (65536 - 5832)).advance ∧
    (State.reset.withFetchWord 16 (65536 - 5832)).mem.read 0 = Word.ofInt (-5832) := by decide

/-! ### The converter and the ALU (sections 2.1 to 2.4) -/

theorem test_encode : Word.encode 5 = .ok ⟨.O, .O, .O, .O, .O, .O, .P, .N, .N⟩ ∧
    Word.encode (-4) = .ok ⟨.O, .O, .O, .O, .O, .O, .O, .N, .N⟩ ∧
    Word.encode (-59) = .ok ⟨.O, .O, .O, .O, .N, .P, .N, .P, .P⟩ ∧
    Word.encode 162 = .ok ⟨.O, .O, .O, .P, .N, .O, .O, .O, .O⟩ ∧
    Word.encode 365 = .ok ⟨.O, .O, .P, .N, .N, .N, .N, .N, .N⟩ ∧
    Word.encode 3281 = .ok ⟨.P, .N, .N, .N, .N, .N, .N, .N, .N⟩ ∧
    Word.encode 4921 = .ok ⟨.P, .N, .P, .N, .P, .N, .P, .N, .P⟩ := by decide
theorem test_encode_range : Word.encode 9842 = .error .rangeError ∧ Word.encode (-9842) = .error .rangeError := by
  decide
theorem test_val : Word.val ⟨.O, .O, .O, .O, .O, .P, .N, .O, .N⟩ = 17 ∧
    Word.val ⟨.P, .P, .P, .P, .P, .P, .P, .P, .P⟩ = 9841 := by decide

/-- The Words of two integers added: the value returned and the carry. -/
def sumOf (a b : Int) : Int × Trit :=
  (((Word.ofInt a).add (Word.ofInt b)).1.val, ((Word.ofInt a).add (Word.ofInt b)).2)

theorem test_add_carries : sumOf 9841 1 = (-9841, .P) ∧ sumOf (-9841) (-1) = (9841, .N) ∧
    sumOf 9841 9841 = (-1, .P) ∧ sumOf 6561 6561 = (-6561, .P) := by decide
theorem test_add_in_range : sumOf 42 17 = (59, .O) ∧ sumOf 5000 4841 = (9841, .O) ∧
    sumOf (-9841) 9841 = (0, .O) := by decide
theorem test_add_column : addTrit .P .P .O = (.N, .P) ∧ addTrit .N .N .N = (.O, .N) ∧
    addTrit .P .P .P = (.O, .P) := by decide
theorem test_sign : (Word.ofInt 365).sign = .P ∧ (Word.ofInt (-365)).sign = .N ∧ Word.zero.sign = .O := by
  decide
theorem test_compare : (Word.ofInt 3281).compare (Word.ofInt 3280) = .gt ∧
    (Word.ofInt 17).compare (Word.ofInt 42) = .lt ∧ (Word.ofInt 5).compare (Word.ofInt 5) = .eq := by decide
theorem test_shift : ((Word.ofInt 42).shift 5).val = -9477 ∧ ((Word.ofInt 42).shift (-2)).val = 5 ∧
    ((Word.ofInt 3281).shift 1).val = -9840 ∧ ((Word.ofInt (-5)).shift (-1)).val = -2 ∧
    ((Word.ofInt (-9841)).shift (-8)).val = -1 := by decide

/-! ### One step of each instruction (sections 2.6 to 2.11). `start w S R F cells` has the Word of value `w`
at address 10, `C` = 10 and the given registers and cells. -/

/-- The start state of a single-instruction vector. -/
def start (w S R F : Int) (cells : List (Int × Int)) : State :=
  { State.reset with
    mem := loadCells ((10, Word.ofInt w) :: cells.map fun c => (c.1, Word.ofInt c.2)) State.reset.mem
    S := Word.ofInt S, R := Word.ofInt R, F := Word.ofInt F, omega := (Word.ofInt S).sign, C := Word.ofInt 10 }

/-- What a vector states of one step: the status and the registers after it, by value. -/
structure Seen where
  status : Status
  S : Int
  omega : Trit
  R : Int
  F : Int
  C : Int
  V : Bool
deriving DecidableEq, Repr

/-- One step of a vector. -/
def outcome (s : State) : Seen :=
  { status := (engineStep s).1, S := (engineStep s).2.S.val, omega := (engineStep s).2.omega,
    R := (engineStep s).2.R.val, F := (engineStep s).2.F.val, C := (engineStep s).2.C.val,
    V := (engineStep s).2.V }

/-- The value in cell `a` after one step. -/
def cellAfter (s : State) (a : Nat) : Int := ((engineStep s).2.mem.read a).val

theorem test_lda :
    outcome (start 749 7 0 0 [(20, -5)]) = ⟨.continuing, -5, .N, 0, 0, 11, false⟩ ∧
    outcome (start 739 7 0 0 []) = ⟨.continuing, 739, .P, 0, 0, 11, false⟩ := by decide
theorem test_lda_outside_memory :
    outcome (start 891 0 0 0 []) = ⟨.fault .addressFault, 0, .O, 0, 0, 10, false⟩ ∧
    outcome (start 728 0 0 0 []) = ⟨.fault .addressFault, 0, .O, 0, 0, 10, false⟩ := by decide
theorem test_sta :
    outcome (start 1478 (-42) 0 0 []) = ⟨.continuing, -42, .N, 0, 0, 11, false⟩ ∧
    cellAfter (start 1478 (-42) 0 0 []) 20 = -42 := by decide
theorem test_sta_own_cell :
    outcome (start 1468 733 0 0 []) = ⟨.continuing, 733, .P, 0, 0, 11, false⟩ ∧
    cellAfter (start 1468 733 0 0 []) 10 = 733 := by decide
theorem test_xchg :
    outcome (start 2207 2 0 0 [(20, -1)]) = ⟨.continuing, -1, .N, 0, 0, 11, false⟩ ∧
    cellAfter (start 2207 2 0 0 [(20, -1)]) 20 = 2 := by decide
theorem test_xchg_own_cell :
    outcome (start 2197 5 0 0 []) = ⟨.continuing, 2197, .P, 0, 0, 11, false⟩ ∧
    cellAfter (start 2197 5 0 0 []) 10 = 5 := by decide
theorem test_ldr :
    outcome (start 2936 3 0 0 [(20, -5)]) = ⟨.continuing, 3, .P, -5, 0, 11, false⟩ := by decide
theorem test_str :
    outcome (start 3675 0 1 0 []) = ⟨.continuing, 0, .O, 1, 0, 11, false⟩ ∧
    cellAfter (start 3675 0 1 0 []) 30 = 1 := by decide
theorem test_ldf :
    outcome (start 4414 0 0 0 [(40, 5)]) = ⟨.continuing, 0, .O, 0, 5, 11, false⟩ := by decide
theorem test_stf :
    outcome (start 5144 0 0 3 []) = ⟨.continuing, 0, .O, 0, 3, 11, false⟩ ∧
    cellAfter (start 5144 0 0 3 []) 41 = 3 := by decide
theorem test_ldx :
    outcome (start 5892 0 0 3 [(63, 30)]) = ⟨.continuing, 30, .P, 0, 3, 11, false⟩ ∧
    outcome (start 6196 0 0 (-364) [(0, -8)]) = ⟨.continuing, -8, .N, 0, -364, 11, false⟩ := by decide
theorem test_ldx_faults :
    outcome (start 5992 0 0 2 []) = ⟨.fault .addressFault, 0, .O, 0, 2, 10, false⟩ ∧
    outcome (start 5932 0 0 9841 []) = ⟨.fault .addressFault, 0, .O, 0, 9841, 10, false⟩ := by decide
theorem test_stx :
    outcome (start 6661 7 0 2 []) = ⟨.continuing, 7, .P, 0, 2, 11, false⟩ ∧
    cellAfter (start 6661 7 0 2 []) 102 = 7 := by decide
theorem test_stx_negative_operand :
    cellAfter (start 6461 7 0 261 []) 161 = 7 ∧
    outcome (start 6722 7 0 1 []) = ⟨.fault .addressFault, 7, .P, 0, 1, 10, false⟩ := by decide
theorem test_xsr :
    outcome (start (-8019) 317 1 0 []) = ⟨.continuing, 1, .P, 317, 0, 11, false⟩ ∧
    outcome (start (-7896) 0 (-4) 0 []) = ⟨.continuing, -4, .N, 0, 0, 11, false⟩ := by decide
theorem test_add :
    outcome (start 7310 42 0 0 [(20, 17)]) = ⟨.continuing, 59, .P, 0, 0, 11, false⟩ ∧
    outcome (start 7310 9841 0 0 [(20, 1)]) = ⟨.continuing, -9841, .N, 0, 0, 11, true⟩ := by decide
theorem test_add_keeps_V :
    outcome { start 7310 1 0 0 [(20, 1)] with V := true } = ⟨.continuing, 2, .P, 0, 0, 11, true⟩ := by decide
theorem test_sub :
    outcome (start 8039 17 0 0 [(20, 42)]) = ⟨.continuing, -25, .N, 0, 0, 11, false⟩ ∧
    outcome (start 8039 (-9841) 0 0 [(20, 1)]) = ⟨.continuing, 9841, .P, 0, 0, 11, true⟩ := by decide
theorem test_sub_ends :
    outcome (start 8039 9841 0 0 [(20, -9841)]) = ⟨.continuing, -1, .N, 0, 0, 11, true⟩ ∧
    outcome (start 8039 0 0 0 [(20, -9841)]) = ⟨.continuing, 9841, .P, 0, 0, 11, false⟩ := by decide
theorem test_mul :
    outcome (start 8768 6 99 0 [(20, 7)]) = ⟨.continuing, 42, .P, 0, 0, 11, false⟩ ∧
    outcome (start 8768 9841 0 0 [(20, -9841)]) = ⟨.continuing, -4921, .N, -4920, 0, 11, false⟩ := by decide
theorem test_mul_sign_of_low_word :
    outcome (start 8768 3281 0 0 [(20, 3)]) = ⟨.continuing, -9840, .N, 1, 0, 11, false⟩ ∧
    outcome (start 8768 6561 0 0 [(20, 3)]) = ⟨.continuing, 0, .O, 1, 0, 11, false⟩ := by decide
theorem test_div :
    outcome (start (-4354) (-7) 0 0 [(20, 2)]) = ⟨.continuing, -3, .N, -1, 0, 11, false⟩ ∧
    outcome (start (-4354) 7 99 0 [(20, -2)]) = ⟨.continuing, -3, .N, 1, 0, 11, false⟩ := by decide
theorem test_div_by_zero :
    outcome (start (-4354) 5 99 0 []) = ⟨.fault .rangeError, 5, .P, 99, 0, 10, false⟩ ∧
    outcome (start (-4074) 5 0 0 []) = ⟨.fault .addressFault, 5, .P, 0, 0, 10, false⟩ := by decide
theorem test_neg :
    outcome (start (-5103) 9841 0 0 []) = ⟨.continuing, -9841, .N, 0, 0, 11, false⟩ ∧
    outcome (start (-5180) 1 0 0 []) = ⟨.continuing, -1, .N, 0, 0, 11, false⟩ := by decide
theorem test_jmp :
    outcome (start (-568) 0 0 0 []) = ⟨.continuing, 0, .O, 0, 0, 161, false⟩ ∧
    outcome (start (-567) 0 0 0 []) = ⟨.fault .addressFault, 0, .O, 0, 0, 10, false⟩ := by decide
theorem test_jz :
    outcome (start (-1418) 0 0 0 []) = ⟨.continuing, 0, .O, 0, 0, 40, false⟩ ∧
    outcome (start (-1418) 5 0 0 []) = ⟨.continuing, 5, .P, 0, 0, 11, false⟩ := by decide
theorem test_jz_checks_untaken_target :
    outcome (start (-1258) 5 0 0 []) = ⟨.fault .addressFault, 5, .P, 0, 0, 10, false⟩ := by decide
theorem test_jp :
    outcome (start (-2147) 5 0 0 []) = ⟨.continuing, 5, .P, 0, 0, 40, false⟩ ∧
    outcome (start (-2147) (-5) 0 0 []) = ⟨.continuing, -5, .N, 0, 0, 11, false⟩ := by decide
theorem test_jn :
    outcome (start (-2876) (-5) 0 0 []) = ⟨.continuing, -5, .N, 0, 0, 40, false⟩ ∧
    outcome (start (-2876) 0 0 0 []) = ⟨.continuing, 0, .O, 0, 0, 11, false⟩ := by decide
theorem test_loop :
    outcome (start (-3605) (-7) 0 3 []) = ⟨.continuing, -7, .N, 0, 2, 40, false⟩ ∧
    outcome (start (-3605) 0 0 1 []) = ⟨.continuing, 0, .O, 0, 0, 11, false⟩ := by decide
theorem test_loop_wraps :
    outcome (start (-3605) 0 0 (-9841) []) = ⟨.continuing, 0, .O, 0, 9841, 40, true⟩ ∧
    outcome (start (-3605) 0 0 0 []) = ⟨.continuing, 0, .O, 0, -1, 40, false⟩ := by decide
theorem test_sha :
    outcome (start (-6556) 42 55 0 []) = ⟨.continuing, -9477, .N, 55, 0, 11, false⟩ ∧
    outcome (start (-6563) 42 55 0 []) = ⟨.continuing, 5, .P, 55, 0, 11, false⟩ := by decide
theorem test_sha_far :
    outcome (start (-6925) 42 55 0 []) = ⟨.continuing, 0, .O, 55, 0, 11, false⟩ := by decide
theorem test_shd :
    outcome (start (-7291) 317 1 0 []) = ⟨.continuing, 6667, .P, 0, 0, 11, false⟩ ∧
    outcome (start (-7288) (-3281) 3281 0 []) = ⟨.continuing, 9837, .P, -9839, 0, 11, false⟩ := by decide
theorem test_shd_far :
    outcome (start (-7273) (-1) 5 0 []) = ⟨.continuing, 0, .O, -6561, 0, 11, false⟩ ∧
    outcome (start (-7308) 42 5 0 []) = ⟨.continuing, 0, .O, 0, 0, 11, false⟩ := by decide
theorem test_hlt :
    outcome (start (-8748) 3 0 0 []) = ⟨.halted, 3, .P, 0, 0, 11, false⟩ ∧
    (engineStep (start (-8748) 3 0 0 [])).2.RUN = false := by decide
theorem test_nop :
    outcome (start (-5755) 3 4 5 []) = ⟨.continuing, 3, .P, 4, 5, 11, false⟩ := by decide
theorem test_undefNnn :
    outcome (start (-9841) 0 0 0 []) = ⟨.fault .decodeError, 0, .O, 0, 0, 10, false⟩ := by decide
theorem test_undefOoo :
    outcome (start 364 0 0 0 []) = ⟨.fault .decodeError, 0, .O, 0, 0, 10, false⟩ := by decide
theorem test_undefPpp :
    outcome (start 9113 0 0 0 []) = ⟨.fault .decodeError, 0, .O, 0, 0, 10, false⟩ := by decide

theorem test_counter_outside_memory :
    engineStep (State.reset.setC (Word.ofInt 162)) = (.fault .addressFault, State.reset.setC (Word.ofInt 162)) ∧
    (engineStep { State.reset with C := Word.ofInt (-1) }).1 = .fault .addressFault ∧
    (engineStep { State.reset with C := Word.ofInt 162, RUN := false }).1 = .halted := by decide
theorem test_step_report : stepReport (start 7310 9841 0 0 [(20, 1)]) =
    { status := .continuing, overflow := true } := by decide
theorem test_snapshot : (snapshot (start 7310 9841 0 0 [(20, 1)])).S = Word.ofInt 9841 ∧
    ((snapshot (start 7310 9841 0 0 [(20, 1)])).cells.take 21).getLast? = some (Word.ofInt 1) := by decide
theorem test_snapshot_has_every_cell (s : State) : (snapshot s).cells.length = 162 := by
  simp [snapshot, Config.memCells]

/-! ### The assembler (part 4) -/

/-- The kind and line of the error of a source text, or the image's cells by value, its labels' number and
its entry. -/
def assembled (src : String) : Except (AsmErrorKind × Nat) (List (Int × Int) × Nat × Int) :=
  match assembleText src with
  | .ok img => .ok (img.cells.map (fun c => (c.1, c.2.val)), img.labels.length, img.entry)
  | .error e => .error (e.kind, e.line)

theorem test_asm_labels :
    assembled "start:\n JMP end\nmid: NOP\nend: HLT" = .ok ([(0, -727), (1, -5832), (2, -8748)], 3, 0) := by
  decide
theorem test_asm_layout :
    assembled "; scenario A\n   LDA   4 ; load\n\nADD 5\n\tSTA\t6
\nHLT ; stop" = .ok ([(0, 733), (1, 7295), (2, 1464), (3, -8748)], 0, 0) := by decide
theorem test_asm_org :
    assembled " ORG 10\nv: DAT -1\n ORG 5\ngo: LDA v\n HLT" = .ok ([(5, 739), (6, -8748), (10, -1)], 2, 5) := by
  decide
theorem test_asm_label_errors :
    assembled "JMP nowhere" = .error (.undefinedLabel, 1) ∧
    assembled "x: DAT 1\nx: DAT 2" = .error (.duplicateLabel, 2) ∧
    assembled " JMP nowhere\nx: DAT 1\nx: DAT 2" = .error (.duplicateLabel, 3) := by decide
theorem test_asm_collision :
    assembled " LDA 1\n ORG 0\n HLT" = .error (.addressCollision, 3) := by decide
theorem test_asm_range :
    assembled "DAT 9842" = .error (.rangeError, 1) ∧
    assembled "LDA 365" = .error (.rangeError, 1) ∧
    assembled "SHA -364" = .ok ([(0, -6925)], 0, 0) := by decide
theorem test_asm_mnemonics :
    assembled "lda 4" = .error (.unknownMnemonic, 1) ∧
    assembled "Loop: LOOP Loop" = .ok ([(0, -3645)], 1, 0) := by decide
theorem test_asm_bad_syntax :
    assembled "LDA" = .error (.badSyntax, 1) ∧
    assembled "LDA 4 5" = .error (.badSyntax, 1) ∧
    assembled "DAT x" = .error (.badSyntax, 1) ∧
    assembled "9lives: NOP" = .error (.badSyntax, 1) := by decide
theorem test_asm_colon_tokens :
    assembled "a: FOO b:" = .error (.unknownMnemonic, 1) ∧
    assembled "a: NOP b:" = .error (.badSyntax, 1) ∧
    assembled "a: b: NOP" = .error (.badSyntax, 1) := by decide
theorem test_asm_class_z_operand :
    assembled "HLT 5" = .ok ([(0, -8743)], 0, 0) ∧
    assembled "HLT" = .ok ([(0, -8748)], 0, 0) := by decide
theorem test_asm_outside_memory :
    assembled "ORG 162\nNOP" = .error (.addressOutOfRange, 2) ∧
    assembled "ORG 162" = .ok ([], 0, 0) ∧
    assembled "" = .ok ([], 0, 0) := by decide
theorem test_asm_table : mnemonicTable.length = Config.numInstr ∧
    mnemonicTable.all (fun r => decide ((decode (Word.ofInt (r.2.1 * 729))).opClass = r.2.2)) = true := by
  decide

/-! ### The controller (part 3, program P8 with a breakpoint) -/

/-- A session over the endless loop `JMP 0`. -/
def looping : Controller :=
  { Controller.fresh with engine := { State.reset with mem := ⟨[(0, Word.ofInt (-729))]⟩ } }

theorem test_run_budget : run 3 looping.engine = (.budgetExceeded, looping.engine) ∧
    run 0 looping.engine = (.budgetExceeded, looping.engine) := by decide
theorem test_breakpoint : ((looping.setBreakpoint 0).runUntil 3).1 = .breakpointHit 0 ∧
    ((looping.setBreakpoint 0).runUntil 3).2.session = .stoppedAtBreakpoint 0 := by decide
/-- A session at the end of memory, where the next step faults, with a breakpoint at 162. -/
def pastTheEnd : Controller :=
  Controller.setBreakpoint { Controller.fresh with engine := State.reset.setC (Word.ofInt 162) } 162

theorem test_breakpoint_outside_memory_never_matches :
    162 ∈ pastTheEnd.breakpoints ∧ (pastTheEnd.runUntil 3).1 = .fault .addressFault := by decide
theorem test_controller_trace : looping.runTrace 2 = runTrace 2 looping.engine ∧
    (looping.runTrace 2).length = 2 ∧ (looping.setBreakpoint 0).runTrace 2 = [] ∧
    (looping.stepTrace.map TraceRecord.instr) = [.jmp 0] ∧
    looping.snapshot.C = Word.zero := by decide
theorem test_breakpoint_skipped_once :
    ((((looping.setBreakpoint 0).runUntil 3).2).runUntil 0).1 = .budgetExceeded ∧
    ((((looping.setBreakpoint 0).runUntil 3).2).runUntil 1).1 = .breakpointHit 0 := by decide

/-! ### Witnesses: for every obligation with hypotheses, values that meet them, each clause at the ends of
its range -/

theorem witness_DecodeAfterEncodeIsIdentity :
    (Instr.lda (-364)).wf = true ∧
    decode (encode (.lda (-364))) = .lda (-364) ∧
    (Instr.mul 364).wf = true ∧
    decode (encode (.mul 364)) = .mul 364 := by decide
theorem witness_UndefinedWordsAreThreeRanges :
    (decode (Word.ofInt (-9841))).undefined = true ∧
    (decode (Word.ofInt (-9113))).undefined = true ∧
    (decode (Word.ofInt (-9112))).undefined = false ∧
    (decode (Word.ofInt (-365))).undefined = false ∧
    (decode (Word.ofInt (-364))).undefined = true ∧
    (decode (Word.ofInt 364)).undefined = true ∧
    (decode (Word.ofInt 365)).undefined = false ∧
    (decode (Word.ofInt 9112)).undefined = false ∧
    (decode (Word.ofInt 9113)).undefined = true ∧
    (decode (Word.ofInt 9841)).undefined = true := by decide
theorem witness_ConverterRoundTrips :
    Word.encode 9841 = .ok (Word.ofInt 9841) ∧
    (Word.ofInt 9841).val = 9841 ∧
    Word.encode (-9841) = .ok (Word.ofInt (-9841)) ∧
    (Word.ofInt (-9841)).val = -9841 := by decide
theorem witness_EncodeGivesUniqueWordOrRangeError :
    ((-9841 : Int) < 9842 ∧ (9841 : Int) < 9842) ∧
    Word.encode 9842 = .error .rangeError ∧
    (-9842 : Int) < -9841 ∧
    Word.encode (-9842) = .error .rangeError := by decide
theorem witness_NegateFlipsTritsAndSign :
    0 ≤ 8 ∧
    8 ≤ 8 ∧
    (Word.ofInt 6561).negate.trit 8 = ((Word.ofInt 6561).trit 8).neg ∧
    ((Word.ofInt 1).negate).trit 0 = ((Word.ofInt 1).trit 0).neg := by decide
theorem witness_ShiftMovesTritsAndFillsWithO :
    ((Word.ofInt 1).shift 8).trit 8 = .P ∧
    ((Word.ofInt 6561).shift (-8)).trit 0 = .P ∧
    ((Word.ofInt 9841).shift 9).trit 8 = .O ∧
    ((Word.ofInt 9841).shift 0).trit 8 = .P := by decide
theorem witness_ShiftMultipliesOrRoundsToNearest :
    ((Word.ofInt 42).shift ((8 : Nat) : Int)).val = bmod (42 * 3 ^ 8) 19683 ∧
    ((Word.ofInt 42).shift ((0 : Nat) : Int)).val = bmod (42 * 3 ^ 0) 19683 ∧
    ((Word.ofInt 5).shift (-((1 : Nat) : Int))).val = 2 ∧
    ((Word.ofInt (-9841)).shift (-((8 : Nat) : Int))).val = -1 ∧
    (Word.ofInt 9841).shift 9 = Word.zero ∧
    (Word.ofInt 9841).shift (-9) = Word.zero := by decide
theorem witness_UnpairInvertsPairValue :
    pairVal (unpair 193710244).1 (unpair 193710244).2 = 193710244 ∧
    pairVal (unpair (-193710244)).1 (unpair (-193710244)).2 = -193710244 := by decide
/-- The memory with 7 in cell 0 and 5 in cell 161, written from the top. -/
def twoCells : Memory := ((⟨[]⟩ : Memory).write 161 (Word.ofInt 5)).write 0 (Word.ofInt 7)

/-- The same, written from the bottom, the top cell twice. -/
def twoCellsAgain : Memory :=
  (((⟨[]⟩ : Memory).write 0 (Word.ofInt 7)).write 161 (Word.ofInt 6)).write 161 (Word.ofInt 5)

theorem witness_EqualReadsMeanEqualMemory :
    twoCells.wf = true ∧ twoCellsAgain.wf = true ∧ ∀ a, a < 162 → twoCells.read a = twoCellsAgain.read a :=
  have h : twoCells = twoCellsAgain := by decide
  ⟨by decide, by decide, fun a _ => congrArg (fun m => Memory.read m a) h⟩

/-- A running state whose cell `a` holds the Word of value `w`, with `C` at `a`. -/
def at_ (a w : Int) : State :=
  { State.reset with mem := loadCells [(a, Word.ofInt w)] State.reset.mem, C := Word.ofInt a }

theorem witness_StepRunsDecodedInstruction :
    (at_ 0 (-5832)).RUN = true ∧
    (at_ 0 (-5832)).C.val = 0 ∧
    decode ((at_ 0 (-5832)).mem.read 0) = .nop 0 ∧
    nextOf (step (at_ 0 (-5832))) = nextOf (exec (.nop 0) (at_ 0 (-5832))) ∧ done (step (at_ 0 (-5832))) = true ∧
    (at_ 161 749).C.val = 161 ∧
    decode ((at_ 161 749).mem.read 161) = .lda 20 ∧
    nextOf (step (at_ 161 749)) = nextOf (exec (.lda 20) (at_ 161 749)) ∧ done (step (at_ 161 749)) = true := by
  decide
theorem witness_FetchFaultsOutsideMemory :
    fetch (at_ 0 749) = .ok (Word.ofInt 749) ∧ fetch (at_ 161 749) = .ok (Word.ofInt 749) ∧
    (Word.ofInt (-1)).val < 0 ∧ 161 < (Word.ofInt 162).val ∧ State.reset.RUN = true ∧
    engineStep (State.reset.setC (Word.ofInt (-1))) = (.fault .addressFault, State.reset.setC (Word.ofInt (-1))) ∧
    engineStep (State.reset.setC (Word.ofInt 162)) = (.fault .addressFault, State.reset.setC (Word.ofInt 162)) := by
  decide
theorem witness_HaltedEngineStaysAsItIs :
    State.reset.halt.RUN = false ∧ nextOf (step State.reset.halt) = some State.reset.halt := by decide
theorem witness_FaultLeavesStateUnchanged :
    engineStep (at_ 10 (-4354)) = (.fault .rangeError, at_ 10 (-4354)) ∧ stepTrace (at_ 10 (-4354)) = [] := by
  decide
theorem witness_StepFaultsFollowTheTable :
    faultOf (at_ 10 (-4354)) = some .rangeError ∧ faultIn (step (at_ 10 (-4354))) = some .rangeError ∧
    faultOf (at_ 10 749) = none ∧ done (step (at_ 10 749)) = true := by decide
/-- An accepted load, from the state it gives. -/
theorem ok_of_toOption {x : Except Fault State} {t : State} (h : x.toOption = some t) : x = .ok t := by
  cases x with
  | ok _ => cases h; rfl
  | error _ => cases h

/-- A completed step, from the state it gives. -/
theorem next_of_nextOf {x : Result} {t : State} (h : nextOf x = some t) : x = .next t := by
  cases x with
  | next _ => cases h; rfl
  | fault _ => cases h
  | refused _ => cases h

theorem witness_EveryStepKeepsInvariant : Inv (at_ 161 (-5832)) ∧ done (step (at_ 161 (-5832))) = true :=
  ⟨⟨by decide, by decide, by decide, by decide⟩, by decide⟩

/-- The image of one NOP in the last cell. -/
def lastNop : Image := { cells := [(161, Word.ofInt (-5832))], labels := [], entry := 161 }

theorem witness_ReachableStatesHaveInvariant : Reachable (at_ 161 (-5832)).advance :=
  have hl : (loadImage lastNop State.reset).toOption = some (at_ 161 (-5832)) := by decide
  have hs : nextOf (step (at_ 161 (-5832))) = some (at_ 161 (-5832)).advance := by decide
  .step (.load .reset (ok_of_toOption hl)) (next_of_nextOf hs)
theorem witness_OnlyHltClearsRunAndOnlyResetSetsIt :
    (at_ 10 (-8748)).RUN = true ∧ nextOf (step (at_ 10 (-8748))) = some (at_ 10 (-8748)).halt.advance ∧
    (at_ 10 (-5832)).RUN = true ∧ nextOf (step (at_ 10 (-5832))) = some (at_ 10 (-5832)).advance ∧
    State.reset.halt.RUN = false ∧
    (loadImage { cells := [], labels := [], entry := 0 } State.reset.halt).isOk = true := by decide
theorem witness_OverflowFlagIsSticky :
    (start 7310 9841 0 0 [(20, 1)]).V = false ∧ (engineStep (start 7310 9841 0 0 [(20, 1)])).2.V = true ∧
    done (step (start 7310 9841 0 0 [(20, 1)])) = true ∧
    done (step { start 7310 1 0 0 [(20, 1)] with V := true }) = true := by decide
theorem witness_OnlyTheListedInstructionsWrite :
    nextOf (exec (.nop 0) State.reset) = some State.reset.advance ∧
    (∀ n, Instr.nop 0 ≠ .hlt n) ∧ (∀ n, Instr.nop 0 ≠ .ldf n ∧ Instr.nop 0 ≠ .loop n) :=
  ⟨by decide, fun _ h => (by cases h), fun _ => ⟨fun h => (by cases h), fun h => (by cases h)⟩⟩
theorem witness_CounterLeavesMemoryOnlyFromTheLastCell :
    (at_ 161 (-5832)).RUN = true ∧ nextOf (step (at_ 161 (-5832))) = some (at_ 161 (-5832)).advance ∧
    (at_ 161 (-5832)).advance.C.val = 162 ∧ (at_ 161 (-5832)).C.val = 161 ∧
    nextOf (step (at_ 161 (-729))) = some ((at_ 161 (-729)).jumpTo 0) ∧ ((at_ 161 (-729)).jumpTo 0).C.val = 0 := by
  decide
theorem witness_RunEndsAsItsStatusSays :
    (run 1 (at_ 10 (-8748))).1 = .halted ∧ (run 1 State.reset).1 = .fault .decodeError ∧
    (run 1 looping.engine).1 = .budgetExceeded := by decide
theorem witness_RunEndsAsItsStatusSays_first_step :
    looping.engine.RUN = true ∧ engineStep looping.engine = (.continuing, looping.engine) ∧
    run (0 + 1) looping.engine = run 0 looping.engine ∧
    engineStep (at_ 10 (-8748)) = (.halted, (at_ 10 (-8748)).halt.advance) ∧
    run (0 + 1) (at_ 10 (-8748)) = (.halted, (at_ 10 (-8748)).halt.advance) ∧
    engineStep State.reset = (.fault .decodeError, State.reset) ∧
    run (0 + 1) State.reset = (.fault .decodeError, State.reset) := by decide
theorem witness_RunContinuesAfterBudget :
    run 1 looping.engine = (.budgetExceeded, looping.engine) ∧
    run (1 + 1) looping.engine = run 1 looping.engine := by decide
theorem witness_TraceHasOneRecordPerCompletedStep :
    (run 2 looping.engine).1 = .budgetExceeded ∧ (runTrace 2 looping.engine).length = 2 ∧
    (runTrace 2 looping.engine).head?.map TraceRecord.pre = some looping.engine ∧
    ((runTrace 2 looping.engine)[1]?).map TraceRecord.pre =
      ((runTrace 2 looping.engine)[0]?).map TraceRecord.post ∧
    runTrace 0 looping.engine = [] := by decide
theorem witness_TraceHasOneRecordPerCompletedStep_faulted :
    (run 3 (at_ 160 (-5832))).1 = .fault .decodeError ∧ (runTrace 3 (at_ 160 (-5832))).length = 1 ∧
    (run 3 (at_ 161 (-5832))).1 = .fault .addressFault ∧ (runTrace 3 (at_ 161 (-5832))).length = 1 := by
  decide
theorem witness_TraceHasOneRecordPerCompletedStep_halted :
    (at_ 10 (-8748)).RUN = true ∧ (run 3 (at_ 10 (-8748))).1 = .halted ∧
    (runTrace 3 (at_ 10 (-8748))).length = 0 + 1 ∧ (run 0 (at_ 10 (-8748))).1 = .budgetExceeded := by decide

/-- An image whose cells are the first and the last of memory. -/
def ends : Image := { cells := [(0, Word.ofInt 1), (161, Word.ofInt 2)], labels := [], entry := 161 }

theorem witness_LoadImageCopiesCellsAndSetsEntry :
    (∀ c ∈ ends.cells, 0 ≤ c.1 ∧ c.1 ≤ 161) ∧ (0 ≤ ends.entry ∧ ends.entry ≤ 161) ∧
    (ends.cells.map Prod.fst).Nodup ∧ (loadImage ends State.reset).isOk = true ∧
    (loadImage { ends with entry := 0 } State.reset).isOk = true ∧
    loadImage { ends with cells := [(-1, Word.zero)] } State.reset = .error .addressFault ∧
    loadImage { ends with cells := [(162, Word.zero)] } State.reset = .error .addressFault ∧
    loadImage { ends with entry := -1 } State.reset = .error .addressFault ∧
    loadImage { ends with entry := 162 } State.reset = .error .addressFault := by decide
theorem witness_BreakpointsFormASet :
    5 ∉ Controller.fresh.breakpoints ∧ Controller.fresh.clearBreakpoint 5 = Controller.fresh ∧
    (Controller.fresh.setBreakpoint 5).breakpoints = [5] := by decide
theorem witness_BreakpointStopStandsAtTheBreakpoint :
    (looping.setBreakpoint 0).engine.RUN = true ∧ (looping.setBreakpoint 0).engine.C.val = 0 ∧
    0 ∈ (looping.setBreakpoint 0).breakpoints ∧
    (looping.setBreakpoint 0).session ≠ .stoppedAtBreakpoint 0 ∧
    (looping.setBreakpoint 0).runUntil 1 =
      (.breakpointHit 0, { looping.setBreakpoint 0 with session := .stoppedAtBreakpoint 0 }) := by decide

/-- A session about to execute a NOP in the last cell, with a breakpoint there. -/
def atTheEnd : Controller := Controller.setBreakpoint { Controller.fresh with engine := at_ 161 (-5832) } 161

theorem witness_BreakpointStopStandsAtTheBreakpoint_last_cell :
    atTheEnd.engine.RUN = true ∧ atTheEnd.engine.C.val = 161 ∧ 161 ∈ atTheEnd.breakpoints ∧
    atTheEnd.session ≠ .stoppedAtBreakpoint 161 ∧
    atTheEnd.runUntil 0 = (.breakpointHit 161, { atTheEnd with session := .stoppedAtBreakpoint 161 }) := by
  decide
theorem witness_ControlledRunWithoutBreakpointsIsRun :
    looping.breakpoints = [] ∧ (looping.runUntil 2).1 = .budgetExceeded ∧
    ({ looping with engine := State.reset }.runUntil 2).1 = .fault .decodeError ∧
    ({ looping with engine := at_ 10 (-8748) }.runUntil 2).1 = .halted := by decide
theorem witness_ControlledRunWithoutBreakpointsIsRun_stopped :
    (Controller.runUntil { looping.setBreakpoint 0 with session := .stoppedAtBreakpoint 0 } 3).1 =
      .breakpointHit 0 ∧
    run 1 looping.engine = (.budgetExceeded, looping.engine) ∧
    Controller.runTrace { looping.setBreakpoint 0 with session := .stoppedAtBreakpoint 0 } 3 =
      runTrace 1 looping.engine := by decide
theorem witness_SessionMatchesTheRunsEnding :
    (looping.runUntil 2).1 = .budgetExceeded ∧ (Controller.fresh.runUntil 2).1 = .fault .decodeError ∧
    ({ looping with engine := at_ 10 (-8748) }.runUntil 2).1 = .halted ∧
    { looping with session := .stoppedAtBreakpoint 0 }.session =
      .stoppedAtBreakpoint looping.engine.C.val ∧
    engineStep looping.engine = (.continuing, looping.engine) := by decide
theorem witness_SessionMatchesTheRunsEnding_single_steps :
    (engineStep looping.engine).1 = .continuing ∧ looping.step.2.session = .ready ∧
    (engineStep (at_ 10 (-8748))).1 = .halted ∧
    (Controller.step { looping with engine := at_ 10 (-8748) }).2.session = .halted ∧
    (engineStep State.reset).1 = .fault .decodeError ∧
    Controller.fresh.step.2.session = .faulted .decodeError := by decide
theorem witness_SessionMatchesTheRunsEnding_loads :
    (loadImage ends looping.engine).isOk = true ∧ looping.engine.RUN = true ∧
    (looping.loadImage ends).toOption.map Controller.session = some .ready ∧
    (Controller.loadImage { looping with engine := State.reset.halt } ends).toOption.map Controller.session =
      some .halted ∧
    loadImage { ends with entry := 162 } looping.engine = .error .addressFault ∧
    (looping.loadImage { ends with entry := 162 }).isOk = false := by decide
theorem witness_AssembledImagesAlwaysLoad :
    assembled "ORG 161\nHLT" = .ok ([(161, -8748)], 0, 161) ∧
    ({ cells := [(161, Word.ofInt (-8748))], labels := [], entry := 161 } : Image).wf = true := by decide
theorem witness_LayoutNeverChangesTheImage :
    (((sourceLines "A".toList).map fun l => tokens l.text).filter fun ts => !ts.isEmpty) =
      (((sourceLines "\n A;".toList).map fun l => tokens l.text).filter
        fun ts => !ts.isEmpty) := by decide
theorem witness_LayoutNeverChangesTheImage_images :
    assembled "LDA 4" = .ok ([(0, 733)], 0, 0) ∧ assembled "\n LDA\t4 ; x\n" = .ok ([(0, 733)], 0, 0) := by
  decide
theorem witness_LayoutNeverChangesTheImage_errors :
    assembled "LDA" = .error (.badSyntax, 1) ∧ assembled "\n LDA ; x" = .error (.badSyntax, 2) ∧
    tokens ['A', ' ', '\t', 'B'] = tokens ['A', ' ', 'B'] := by decide
theorem witness_AssembledWordsSayWhatTheSourceSays :
    ((pass1 (sourceLines "x: DAT -1\n LDA x".toList) Pass1.start).map
      fun p => p.emissions.map fun e => (e.addr, e.item)) =
      .ok [(0, .data (-1)), (1, .instruction 1 (.label ['x']))] ∧
    assembled "x: DAT -1\n LDA x" = .ok ([(0, -1), (1, 729)], 1, 1) ∧
    splitLabel (tokens "x: DAT -1".toList) = .ok (some ['x'], [['D', 'A', 'T'], ['-', '1']]) ∧
    parseLiteral ['-', '1'] = some (-1) ∧
    lookupMnemonic ['L', 'D', 'A'] mnemonicTable = some (1, .A) ∧
    parseOperand ['x'] = some (.label ['x']) := by decide
theorem witness_AssembledWordsSayWhatTheSourceSays_table :
    lookupMnemonic ['M', 'U', 'L'] mnemonicTable = some (12, .A) ∧ (Word.ofInt 9112).opcField = 12 ∧
    decode (Word.ofInt 9112) = .mul 364 ∧ mnemonicOf (.mul 364) = some ['M', 'U', 'L'] ∧
    (Instr.hlt (-364)).undefined = false ∧ mnemonicOf (.hlt (-364)) = some ['H', 'L', 'T'] ∧
    lookupMnemonic ['H', 'L', 'T'] mnemonicTable = some (-12, .Z) := by decide
theorem witness_AssembledWordsSayWhatTheSourceSays_entry :
    assembled "DAT 1\nHLT" = .ok ([(0, 1), (1, -8748)], 0, 1) ∧
    assembled "DAT 1" = .ok ([(0, 1)], 0, 0) ∧
    parseLiteral ['1'] = some 1 := by decide

/-- Pass 1 with its counter at `n`, the label `x` bound to 0 and one emission at 7. -/
def passAt (n : Int) : Pass1 :=
  { counter := n, labels := [(['x'], 0)],
    emissions := [{ addr := 7, item := .data 1, line := { number := 1, text := [] } }] }

/-- Pass 1 on one line of these tokens: the counter and the number of emissions after it, or the error. -/
def onLine (p : Pass1) (ts : List (List Char)) : Except AsmErrorKind (Int × Nat) :=
  (p.statement { number := 2, text := [] } ts).map fun q => (q.counter, q.emissions.length)

theorem witness_PassOneFollowsTheLocationCounter_labels :
    splitLabel [['x', ':']] = .ok (some ['x'], []) ∧ lookupLabel ['x'] (passAt 3).labels = some 0 ∧
    onLine (passAt 3) [['x', ':']] = .error .duplicateLabel ∧
    lookupLabel ['y'] (passAt 3).labels = none ∧ onLine (passAt 3) [['y', ':']] = .ok (3, 1) := by decide
theorem witness_PassOneFollowsTheLocationCounter_actions :
    parseRest [['N', 'O', 'P']] = .ok (.emit (.instruction (-8) (.literal 0))) ∧
    parseRest [['O', 'R', 'G'], ['9']] = .ok (.org 9) ∧ parseRest [] = .ok .nothing ∧
    onLine (passAt 3) [['O', 'R', 'G'], ['9']] = .ok (9, 1) ∧
    onLine (passAt 0) [['N', 'O', 'P']] = .ok (1, 2) ∧
    onLine (passAt 161) [['N', 'O', 'P']] = .ok (162, 2) := by decide
theorem witness_PassOneFollowsTheLocationCounter_refusals :
    onLine (passAt (-1)) [['N', 'O', 'P']] = .error .addressOutOfRange ∧
    onLine (passAt 162) [['N', 'O', 'P']] = .error .addressOutOfRange ∧
    onLine (passAt 7) [['N', 'O', 'P']] = .error .addressCollision := by decide

theorem witness_LdaLoadsTheAccumulator :
    decode (Word.ofInt (729 + (-364))) = .lda (-364) ∧
    decode (Word.ofInt (729 + 364)) = .lda 364 ∧
    done (exec (.lda 0) State.reset) = true ∧
    done (exec (.lda 161) State.reset) = true ∧
    faultIn (exec (.lda (-1)) State.reset) = some .addressFault ∧
    faultIn (exec (.lda 162) State.reset) = some .addressFault := by decide
theorem witness_StaStoresTheAccumulator :
    decode (Word.ofInt (1458 + (-364))) = .sta (-364) ∧
    decode (Word.ofInt (1458 + 364)) = .sta 364 ∧
    done (exec (.sta 0) State.reset) = true ∧
    done (exec (.sta 161) State.reset) = true ∧
    faultIn (exec (.sta (-1)) State.reset) = some .addressFault ∧
    faultIn (exec (.sta 162) State.reset) = some .addressFault := by decide
theorem witness_XchgSwapsAccumulatorAndCell :
    decode (Word.ofInt (2187 + (-364))) = .xchg (-364) ∧
    decode (Word.ofInt (2187 + 364)) = .xchg 364 ∧
    done (exec (.xchg 0) State.reset) = true ∧
    done (exec (.xchg 161) State.reset) = true ∧
    faultIn (exec (.xchg (-1)) State.reset) = some .addressFault ∧
    faultIn (exec (.xchg 162) State.reset) = some .addressFault := by decide
theorem witness_LdrAndLdfLoadTheirRegister :
    decode (Word.ofInt (2916 + (-364))) = .ldr (-364) ∧
    decode (Word.ofInt (2916 + 364)) = .ldr 364 ∧
    done (exec (.ldr 0) State.reset) = true ∧
    done (exec (.ldr 161) State.reset) = true ∧
    faultIn (exec (.ldr (-1)) State.reset) = some .addressFault ∧
    faultIn (exec (.ldr 162) State.reset) = some .addressFault ∧
    decode (Word.ofInt (4374 + (-364))) = .ldf (-364) ∧
    decode (Word.ofInt (4374 + 364)) = .ldf 364 ∧
    done (exec (.ldf 0) State.reset) = true ∧
    done (exec (.ldf 161) State.reset) = true ∧
    faultIn (exec (.ldf (-1)) State.reset) = some .addressFault ∧
    faultIn (exec (.ldf 162) State.reset) = some .addressFault := by decide
theorem witness_StrAndStfStoreTheirRegister :
    decode (Word.ofInt (3645 + (-364))) = .str (-364) ∧
    decode (Word.ofInt (3645 + 364)) = .str 364 ∧
    done (exec (.str 0) State.reset) = true ∧
    done (exec (.str 161) State.reset) = true ∧
    faultIn (exec (.str (-1)) State.reset) = some .addressFault ∧
    faultIn (exec (.str 162) State.reset) = some .addressFault ∧
    decode (Word.ofInt (5103 + (-364))) = .stf (-364) ∧
    decode (Word.ofInt (5103 + 364)) = .stf 364 ∧
    done (exec (.stf 0) State.reset) = true ∧
    done (exec (.stf 161) State.reset) = true ∧
    faultIn (exec (.stf (-1)) State.reset) = some .addressFault ∧
    faultIn (exec (.stf 162) State.reset) = some .addressFault := by decide
theorem witness_LdxAndStxUseTheIndexedCell :
    decode (Word.ofInt (5832 + (-364))) = .ldx (-364) ∧
    decode (Word.ofInt (5832 + 364)) = .ldx 364 ∧
    done (exec (.ldx 0) State.reset) = true ∧
    done (exec (.ldx 161) State.reset) = true ∧
    faultIn (exec (.ldx (-1)) State.reset) = some .addressFault ∧
    faultIn (exec (.ldx 162) State.reset) = some .addressFault ∧
    decode (Word.ofInt (6561 + (-364))) = .stx (-364) ∧
    decode (Word.ofInt (6561 + 364)) = .stx 364 ∧
    done (exec (.stx 0) State.reset) = true ∧
    done (exec (.stx 161) State.reset) = true ∧
    faultIn (exec (.stx (-1)) State.reset) = some .addressFault ∧
    faultIn (exec (.stx 162) State.reset) = some .addressFault := by decide
theorem witness_XsrSwapsAccumulatorAndExtension :
    decode (Word.ofInt (-8019 + (-364))) = .xsr (-364) ∧
    decode (Word.ofInt (-8019 + 364)) = .xsr 364 ∧
    (start 0 5 (-3) 0 []).omega = (start 0 5 (-3) 0 []).S.sign ∧
    done (exec (.xsr 0) (start 0 5 (-3) 0 [])) = true := by decide
theorem witness_AddAccumulatesAndNotesOverflow :
    decode (Word.ofInt (7290 + (-364))) = .add (-364) ∧
    decode (Word.ofInt (7290 + 364)) = .add 364 ∧
    done (exec (.add 0) State.reset) = true ∧
    done (exec (.add 161) State.reset) = true ∧
    faultIn (exec (.add (-1)) State.reset) = some .addressFault ∧
    faultIn (exec (.add 162) State.reset) = some .addressFault := by decide
theorem witness_SubSubtractsAndCompares :
    decode (Word.ofInt (8019 + (-364))) = .sub (-364) ∧
    decode (Word.ofInt (8019 + 364)) = .sub 364 ∧
    done (exec (.sub 0) State.reset) = true ∧
    done (exec (.sub 161) State.reset) = true ∧
    faultIn (exec (.sub (-1)) State.reset) = some .addressFault ∧
    faultIn (exec (.sub 162) State.reset) = some .addressFault := by decide
theorem witness_MulGivesTheExactProductInThePair :
    decode (Word.ofInt (8748 + (-364))) = .mul (-364) ∧
    decode (Word.ofInt (8748 + 364)) = .mul 364 ∧
    done (exec (.mul 0) State.reset) = true ∧
    done (exec (.mul 161) State.reset) = true ∧
    faultIn (exec (.mul (-1)) State.reset) = some .addressFault ∧
    faultIn (exec (.mul 162) State.reset) = some .addressFault := by decide
theorem witness_DivTruncatesAndFaultsOnZero :
    decode (Word.ofInt (-4374 + (-364))) = .div (-364) ∧
    decode (Word.ofInt (-4374 + 364)) = .div 364 ∧
    ((start 0 7 0 0 [(0, 2), (161, -2)]).mem.read 0).val ≠ 0 ∧
    ((start 0 7 0 0 [(0, 2), (161, -2)]).mem.read 161).val ≠ 0 ∧
    done (exec (.div 0) (start 0 7 0 0 [(0, 2), (161, -2)])) = true ∧
    done (exec (.div 161) (start 0 7 0 0 [(0, 2), (161, -2)])) = true ∧
    faultIn (exec (.div 0) State.reset) = some .rangeError ∧
    faultIn (exec (.div 161) State.reset) = some .rangeError ∧
    faultIn (exec (.div (-1)) State.reset) = some .addressFault ∧
    faultIn (exec (.div 162) State.reset) = some .addressFault := by decide
theorem witness_NegNegatesTheAccumulator :
    decode (Word.ofInt (-5103 + (-364))) = .neg (-364) ∧
    decode (Word.ofInt (-5103 + 364)) = .neg 364 ∧
    done (exec (.neg 364) State.reset) = true := by decide
theorem witness_JmpGoesToItsTarget :
    decode (Word.ofInt (-729 + (-364))) = .jmp (-364) ∧
    decode (Word.ofInt (-729 + 364)) = .jmp 364 ∧
    done (exec (.jmp 0) State.reset) = true ∧
    done (exec (.jmp 161) State.reset) = true ∧
    faultIn (exec (.jmp (-1)) State.reset) = some .addressFault ∧
    faultIn (exec (.jmp 162) State.reset) = some .addressFault := by decide
theorem witness_JzJumpsOnZero :
    decode (Word.ofInt (-1458 + (-364))) = .jz (-364) ∧
    decode (Word.ofInt (-1458 + 364)) = .jz 364 ∧
    done (exec (.jz 0) State.reset) = true ∧
    done (exec (.jz 161) State.reset) = true ∧
    faultIn (exec (.jz (-1)) State.reset) = some .addressFault ∧
    faultIn (exec (.jz 162) State.reset) = some .addressFault := by decide
theorem witness_JzJumpsOnZero_both_ways :
    State.reset.omega = .O ∧ nextOf (exec (.jz 161) State.reset) = some (State.reset.jumpTo 161) ∧
    (start 0 5 0 0 []).omega ≠ .O ∧
    nextOf (exec (.jz 0) (start 0 5 0 0 [])) = some (start 0 5 0 0 []).advance ∧
    (start 0 5 0 0 []).omega = (start 0 5 0 0 []).S.sign := by decide
theorem witness_JpAndJnJumpOnSign :
    decode (Word.ofInt (-2187 + (-364))) = .jp (-364) ∧
    decode (Word.ofInt (-2187 + 364)) = .jp 364 ∧
    done (exec (.jp 0) State.reset) = true ∧
    done (exec (.jp 161) State.reset) = true ∧
    faultIn (exec (.jp (-1)) State.reset) = some .addressFault ∧
    faultIn (exec (.jp 162) State.reset) = some .addressFault ∧
    decode (Word.ofInt (-2916 + (-364))) = .jn (-364) ∧
    decode (Word.ofInt (-2916 + 364)) = .jn 364 ∧
    done (exec (.jn 0) State.reset) = true ∧
    done (exec (.jn 161) State.reset) = true ∧
    faultIn (exec (.jn (-1)) State.reset) = some .addressFault ∧
    faultIn (exec (.jn 162) State.reset) = some .addressFault := by decide
theorem witness_JpAndJnJumpOnSign_both_ways :
    (start 0 5 0 0 []).omega = .P ∧ nextOf (exec (.jp 161) (start 0 5 0 0 [])) = some ((start 0 5 0 0 []).jumpTo 161) ∧
    nextOf (exec (.jn 0) (start 0 5 0 0 [])) = some (start 0 5 0 0 []).advance ∧
    (start 0 (-5) 0 0 []).omega = .N ∧
    nextOf (exec (.jn 161) (start 0 (-5) 0 0 [])) = some ((start 0 (-5) 0 0 []).jumpTo 161) ∧
    nextOf (exec (.jp 0) (start 0 (-5) 0 0 [])) = some (start 0 (-5) 0 0 []).advance := by decide
theorem witness_LoopDecrementsAndJumpsWhileNotZero :
    decode (Word.ofInt (-3645 + (-364))) = .loop (-364) ∧
    decode (Word.ofInt (-3645 + 364)) = .loop 364 ∧
    done (exec (.loop 0) State.reset) = true ∧
    done (exec (.loop 161) State.reset) = true ∧
    faultIn (exec (.loop (-1)) State.reset) = some .addressFault ∧
    faultIn (exec (.loop 162) State.reset) = some .addressFault := by decide
theorem witness_ShaShiftsTheAccumulator :
    decode (Word.ofInt (-6561 + (-364))) = .sha (-364) ∧
    decode (Word.ofInt (-6561 + 364)) = .sha 364 ∧
    done (exec (.sha 364) State.reset) = true ∧
    0 ≤ 8 := by decide
theorem witness_ShdShiftsThePair :
    decode (Word.ofInt (-7290 + (-364))) = .shd (-364) ∧
    decode (Word.ofInt (-7290 + 364)) = .shd 364 ∧
    done (exec (.shd (-364)) State.reset) = true ∧
    17 ≤ 17 := by decide
theorem witness_HltHaltsForGood :
    decode (Word.ofInt (-8748 + (-364))) = .hlt (-364) ∧
    decode (Word.ofInt (-8748 + 364)) = .hlt 364 ∧
    (at_ 161 (-8748)).RUN = true ∧
    (at_ 161 (-8748)).C.val = 161 ∧
    decode ((at_ 161 (-8748)).mem.read 161) = .hlt 0 ∧
    engineStep (at_ 161 (-8748)) = (.halted, (at_ 161 (-8748)).halt.advance) ∧
    engineStep (at_ 0 (-8748)) = (.halted, (at_ 0 (-8748)).halt.advance) ∧
    (loadImage ends State.reset.halt.advance).isOk = true := by decide
theorem witness_NopOnlyAdvances :
    decode (Word.ofInt (-5832 + (-364))) = .nop (-364) ∧
    decode (Word.ofInt (-5832 + 364)) = .nop 364 ∧
    (at_ 161 (-5832)).C.val = 161 ∧
    (at_ 161 (-5832)).RUN = true ∧
    nextOf (exec (.nop 0) (at_ 161 (-5832))) = some (at_ 161 (-5832)).advance ∧
    (engineStep (at_ 161 (-5832)).advance).1 = .fault .addressFault := by decide
theorem witness_UndefinedOpcodesRaiseDecodeError :
    (at_ 0 9113).RUN = true ∧
    (at_ 0 9113).C.val = 0 ∧
    (at_ 161 364).C.val = 161 ∧
    engineStep (at_ 0 9113) = (.fault .decodeError, at_ 0 9113) ∧
    engineStep (at_ 161 364) = (.fault .decodeError, at_ 161 364) ∧
    engineStep (at_ 0 (-9113)) = (.fault .decodeError, at_ 0 (-9113)) ∧
    (engineStep (at_ 0 9112)).1 ≠ .fault .decodeError := by decide

end Sys2Proof.Tests
end

section
/-! What `exec` answers, said once for all instructions: where it completes, its next state is the one its
arm writes, so each fact about what an instruction changes is a fact about `completed`. -/

namespace Sys2Proof.Machine

/-- A completed class A instruction's next state is its body's at the operand. -/
theorem direct_next_eq {opnd : Int} {f : Nat → State} {t : State}
    (h : direct opnd (fun a => .next (f a)) = .next t) : t = f opnd.toNat := by
  obtain ⟨-, hbody⟩ := direct_next h
  cases hbody
  rfl

/-- A completed class X instruction's next state is its body's at the effective address. -/
theorem indexed_next_eq {opnd : Int} {s : State} {f : Nat → State} {t : State}
    (h : indexed opnd s (fun a => .next (f a)) = .next t) : t = f (effectiveAddress opnd s).toNat := by
  obtain ⟨-, hbody⟩ := indexed_next h
  cases hbody
  rfl

/-- A completed class J instruction's next state is its body's at the target. -/
theorem target_next_eq {opnd : Int} {f : Int → State} {t : State}
    (h : target opnd (fun a => .next (f a)) = .next t) : t = f opnd := by
  obtain ⟨-, hbody⟩ := target_next h
  cases hbody
  rfl

/-- The next state that the arm of an instruction writes once all its checks are passed; the undefined rows
write none. `exec_next_eq` ties it to `exec`. -/
def completed (i : Instr) (s : State) : State :=
  match i with
  | .mul n => ((s.setR (mulwide s.S (s.load n.toNat)).1).setS (mulwide s.S (s.load n.toNat)).2).advance
  | .sub n => (accumulate (s.load n.toNat).negate s).advance
  | .add n => (accumulate (s.load n.toNat) s).advance
  | .stx n => (s.store (effectiveAddress n s).toNat s.S).advance
  | .ldx n => (s.setS (s.load (effectiveAddress n s).toNat)).advance
  | .stf n => (s.store n.toNat s.F).advance
  | .ldf n => (s.setF (s.load n.toNat)).advance
  | .str n => (s.store n.toNat s.R).advance
  | .ldr n => (s.setR (s.load n.toNat)).advance
  | .xchg n => ((s.store n.toNat s.S).setS (s.load n.toNat)).advance
  | .sta n => (s.store n.toNat s.S).advance
  | .lda n => (s.setS (s.load n.toNat)).advance
  | .jmp n => s.jumpTo n
  | .jz n => jumpIf (decide (s.omega = .O)) n s
  | .jp n => jumpIf (decide (s.omega = .P)) n s
  | .jn n => jumpIf (decide (s.omega = .N)) n s
  | .loop n =>
    jumpIf (decide ((decremented s).1.val ≠ 0)) n ((s.setF (decremented s).1).noteCarry (decremented s).2)
  | .div n =>
    ((s.setR (Word.ofInt (divtrunc s.S.val (s.load n.toNat).val).2)).setS
      (Word.ofInt (divtrunc s.S.val (s.load n.toNat).val).1)).advance
  | .neg _ => (s.setS s.S.negate).advance
  | .nop _ => s.advance
  | .sha n => (s.setS (s.S.shift n)).advance
  | .shd n => ((s.setR (shift18 s.R s.S n).1).setS (shift18 s.R s.S n).2).advance
  | .xsr _ => ((s.setS s.R).setR s.S).advance
  | .hlt _ => s.halt.advance
  | .undefNnn _ | .undefOoo _ | .undefPpp _ => s

/-- An instruction that completes leaves the state its arm writes: the cases follow the operand classes
(R76), with DIV apart for its divisor check and the undefined rows apart because they never complete. -/
theorem exec_next_eq {i : Instr} {s t : State} (h : exec i s = .next t) : t = completed i s := by
  cases i with
  | mul n | sub n | add n | stf n | ldf n | str n | ldr n | xchg n | sta n | lda n =>
    simp only [exec_mul, exec_sub, exec_add, exec_stf, exec_ldf, exec_str, exec_ldr, exec_xchg, exec_sta,
      exec_lda] at h
    exact direct_next_eq h
  | stx n | ldx n =>
    simp only [exec_stx, exec_ldx] at h
    exact indexed_next_eq h
  | jmp n | jz n | jp n | jn n | loop n =>
    simp only [exec_jmp, exec_jz, exec_jp, exec_jn, exec_loop] at h
    exact target_next_eq h
  | div n =>
    rw [exec_div] at h
    obtain ⟨-, hbody⟩ := direct_next h
    split at hbody
    · exact absurd hbody (raise_ne_next _ _)
    · cases hbody
      rfl
  | neg n | nop n | sha n | shd n | xsr n | hlt n =>
    cases h
    rfl
  | undefNnn n | undefOoo n | undefPpp n => exact absurd h (raise_ne_next _ _)

/-- No instruction but HLT writes `RUN` (R21, R28). -/
theorem completed_RUN_of_ne_hlt {i : Instr} (hne : ∀ n, i ≠ .hlt n) (s : State) :
    (completed i s).RUN = s.RUN := by
  cases i with
  | hlt n => exact absurd rfl (hne n)
  | _ => simp [completed]

/-- HLT clears `RUN` (R231). -/
@[simp] theorem completed_hlt_RUN (n : Int) (s : State) : (completed (.hlt n) s).RUN = false :=
  State.advance_RUN s.halt

/-- On a running engine an instruction clears `RUN` exactly if it is HLT (R28). -/
theorem completed_RUN_false_iff {s : State} (hr : s.RUN = true) (i : Instr) :
    (completed i s).RUN = false ↔ ∃ n, i = .hlt n := by
  constructor
  · intro hf
    by_contra hne
    rw [completed_RUN_of_ne_hlt (not_exists.1 hne), hr] at hf
    cases hf
  · rintro ⟨n, rfl⟩
    exact completed_hlt_RUN n s

/-- A completed step of a running engine leaves the state its fetched instruction writes. -/
theorem step_next_eq {s t : State} (hr : s.RUN = true) (h : step s = .next t) :
    t = completed (decode (s.mem.read s.C.val.toNat)) s := by
  obtain ⟨hhalted, -⟩ | ⟨-, -, hexec⟩ := step_next h
  · rw [hr] at hhalted
    cases hhalted
  · exact exec_next_eq hexec

/-- An image load keeps `RUN`: it writes memory and `C` only (R141). -/
theorem loadImage_RUN {img : Image} {s t : State} (h : loadImage img s = .ok t) : t.RUN = s.RUN := by
  obtain ⟨-, rfl⟩ := loadImage_ok h
  rfl

/-- Settles O24: it holds, each instruction's write of `RUN` read off `completed`. -/
theorem onlyHltClearsRunAndOnlyResetSetsIt : Obligations.OnlyHltClearsRunAndOnlyResetSetsIt := by
  refine ⟨?step, fun _ => engineStep_halted, fun _ _ _ => loadImage_RUN, rfl⟩
  case step =>
    intro s t hr h
    rw [step_next_eq hr h]
    exact completed_RUN_false_iff hr _

end Sys2Proof.Machine
end

section
/-! The converter, negation and the shift of one Word (40_numeral_alu.md R101, R103, R109, R113): one rule
per operation, from which the statements about them follow. -/

namespace Sys2Proof

open Sys2Proof.Machine

/-- In range `encode` succeeds with `word(n)` (R101). -/
theorem Word.encode_of_mem {n : Int} (h : -9841 ≤ n ∧ n ≤ 9841) : Word.encode n = .ok (Word.ofInt n) :=
  if_pos h

/-- Out of range `encode` answers RangeError (R101). -/
theorem Word.encode_of_not_mem {n : Int} (h : n < -9841 ∨ 9841 < n) :
    Word.encode n = .error .rangeError := by
  have hout : ¬ (-9841 ≤ n ∧ n ≤ 9841) := by omega
  exact if_neg hout

/-- A Word's value encodes to the Word (R103). -/
@[simp] theorem Word.encode_val (w : Word) : Word.encode w.val = .ok w := by
  rw [Word.encode_of_mem w.val_bounds, Word.ofInt_val]

/-- Settles O5: it holds, by the value of `word(n)` in range and `word(val(w)) = w`. -/
theorem converterRoundTrips : Obligations.ConverterRoundTrips := by
  refine ⟨?decodeEncode, Word.encode_val⟩
  case decodeEncode =>
    intro n hlo hhi
    exact ⟨Word.ofInt n, Word.encode_of_mem ⟨hlo, hhi⟩, Word.val_ofInt ⟨hlo, hhi⟩⟩

/-- Settles O6: it holds. Uniqueness is the injectivity of `val`, and each written-out Word encodes from its
value. -/
theorem encodeGivesUniqueWordOrRangeError : Obligations.EncodeGivesUniqueWordOrRangeError := by
  refine ⟨?inRange, fun _ => Word.encode_of_not_mem, Word.encode_val ⟨.O, .O, .O, .O, .P, .N, .N, .N, .O⟩,
    Word.encode_val ⟨.P, .P, .P, .P, .P, .P, .P, .P, .P⟩,
    Word.encode_val ⟨.N, .N, .N, .N, .N, .N, .N, .N, .N⟩, Word.encode_val Word.zero⟩
  case inRange =>
    intro n hn
    have hval : (Word.ofInt n).val = n := Word.val_ofInt hn
    exact ⟨Word.ofInt n, Word.encode_of_mem hn, hval, fun _ hv => Word.val_injective (hv.trans hval.symm)⟩

/-- Each trit of a negated Word is the opposite trit (R109). -/
theorem Word.trit_negate (w : Word) {i : Nat} (h : i ≤ 8) : w.negate.trit i = (w.trit i).neg :=
  Word.trit_ofTrits _ h

/-- Negation negates the value: each weighted trit changes its sign (R109). -/
@[simp] theorem Word.val_negate (w : Word) : w.negate.val = -w.val := by
  simp only [Word.val, Word.negate, Word.ofTrits, Word.trit, Trit.toInt_neg]
  ring

/-- Negating twice gives the Word back (R109). -/
@[simp] theorem Word.negate_negate (w : Word) : w.negate.negate = w :=
  Word.val_injective (by rw [Word.val_negate, Word.val_negate, neg_neg])

/-- The Word of an integer in range negates to the Word of the opposite integer. -/
theorem Word.negate_ofInt {n : Int} (h : -9841 ≤ n ∧ n ≤ 9841) :
    (Word.ofInt n).negate = Word.ofInt (-n) := by
  have hneg : -9841 ≤ -n ∧ -n ≤ 9841 := by omega
  exact Word.val_injective (by rw [Word.val_negate, Word.val_ofInt h, Word.val_ofInt hneg])

/-- Settles O8: it holds. The involution comes from the value law and the injectivity of `val`. -/
theorem negateFlipsTritsAndSign : Obligations.NegateFlipsTritsAndSign := fun w =>
  ⟨fun _ => w.trit_negate, w.val_negate, w.negate_negate, Word.negate_ofInt (by decide), rfl, rfl⟩

/-- Position `i` of a shifted Word (R113). -/
theorem Word.trit_shift (w : Word) (k : Int) {i : Nat} (h : i ≤ 8) :
    (w.shift k).trit i =
      if 0 ≤ (i : Int) - k ∧ (i : Int) - k ≤ 8 then w.trit ((i : Int) - k).toNat else .O :=
  Word.trit_ofTrits _ h

/-- Settles O11: it holds, `shift` being written position by position as R113 has it. -/
theorem shiftMovesTritsAndFillsWithO : Obligations.ShiftMovesTritsAndFillsWithO :=
  fun w k _ => w.trit_shift k

end Sys2Proof
end

section
/-! The fetch and the step of an engine whose `C` is at no cell (41_execution_cycle.md R133). -/

namespace Sys2Proof.Machine

/-- A running engine's step is stages 1 to 4 of the cycle (R131, R132). -/
theorem step_running {s : State} (hr : s.RUN = true) : step s = fetchDecodeExecute s := by
  unfold step cycle
  rw [hr]

/-- A fault of the fetch is the step's fault: nothing is decoded or executed (R133, R287). -/
theorem fetchDecodeExecute_fetch_error {s : State} {k : Fault} (h : fetch s = .error k) :
    fetchDecodeExecute s = .fault k := by
  unfold fetchDecodeExecute
  rw [h]
  rfl

/-- Settles O16: it holds. Outside 0 to 161 the fetch's fault is the step's, and a faulted step gives back
the state it began with. -/
theorem fetchFaultsOutsideMemory : Obligations.FetchFaultsOutsideMemory := by
  refine fun s => ⟨fun hin => fetch_valid ((validAddress_iff _).2 hin), fun hout hr => ?outside⟩
  case outside =>
    have hfetch : fetch s = .error .addressFault := fetch_invalid ((validAddress_false_iff _).2 hout)
    have hstep : step s = .fault .addressFault :=
      (step_running hr).trans (fetchDecodeExecute_fetch_error hfetch)
    exact engineStep_fault hr hstep

end Sys2Proof.Machine
end

section
/-! The decoder on the Word of an instruction: the opcode field fixes the three opcode trits, the opcode trits
and the operand field fix the instruction (30_encoding.md R72 to R74). -/

namespace Sys2Proof

/-- The lowest trit of a numeral is the trit it was built from (R104). -/
theorem lowTrit_toInt_add (t : Trit) (m : Int) : lowTrit (t.toInt + 3 * m) = t := by
  have hsplit := lowTrit_dropTrit (t.toInt + 3 * m)
  have hlow := (lowTrit (t.toInt + 3 * m)).toInt_bounds
  have ht := t.toInt_bounds
  exact Trit.toInt_injective (by omega)

/-- The numeral without its lowest trit is the rest it was built from (R104). -/
theorem dropTrit_toInt_add (t : Trit) (m : Int) : dropTrit (t.toInt + 3 * m) = m := by
  have ht := t.toInt_bounds
  unfold dropTrit
  omega

/-- The opcode trits of a Word are the three trits of its opcode value's numeral (R72). -/
theorem Word.opcTrits_eq_digit (w : Word) :
    w.t8 = digit w.opcField 2 ∧ w.t7 = digit w.opcField 1 ∧ w.t6 = digit w.opcField 0 := by
  have hnum : w.opcField = w.t6.toInt + 3 * (w.t7.toInt + 3 * (w.t8.toInt + 3 * 0)) := by
    unfold Word.opcField
    ring
  simp only [hnum, digit, dropTrits, dropTrit_toInt_add, lowTrit_toInt_add, and_self]

/-- A Word with the opcode and the operand of an instruction in its fields decodes to it (R74). -/
theorem decode_eq_of_fields {w : Word} {i : Instr} (hopc : w.opcField = i.opc)
    (hopnd : w.opndField = i.opnd) : decode w = i := by
  obtain ⟨h8, h7, h6⟩ := w.opcTrits_eq_digit
  unfold decode
  rw [h8, h7, h6, hopc, hopnd]
  cases i <;> rfl

/-- `word(opc * 729 + opnd)` decodes to the instruction of that opcode and operand (R73, R74). -/
theorem decode_ofInt {i : Instr} (h : -364 ≤ i.opnd ∧ i.opnd ≤ 364) :
    decode (Word.ofInt (i.opc * 729 + i.opnd)) = i := by
  obtain ⟨hopc, hopnd⟩ := Word.fields_ofInt i.opc_bounds h
  exact decode_eq_of_fields hopc hopnd

end Sys2Proof
end

section
/-! The data transfers of `S` with a direct address (42_data_transfer.md R161 to R163): the class A check by the
bounds of the operand, and what a write to one cell leaves of the memory. -/

namespace Sys2Proof.Machine

/-- Class A with `opnd` in 0 to 161 runs the body at that cell (R76). -/
theorem direct_of_mem {opnd : Int} (h : 0 ≤ opnd ∧ opnd ≤ 161) (body : Nat → Result) :
    direct opnd body = body opnd.toNat :=
  direct_valid ((validAddress_iff opnd).2 h) body

/-- Class A with any other `opnd` is AddressFault before any effect (R76, R136). -/
theorem direct_of_not_mem {opnd : Int} (h : opnd < 0 ∨ 161 < opnd) (body : Nat → Result) :
    direct opnd body = .fault .addressFault :=
  direct_invalid ((validAddress_false_iff opnd).2 h) body

/-- After a write the cell holds the Word written and every other cell is as before (R54). -/
theorem Memory.read_write (m : Memory) (a : Nat) (w : Word) :
    (m.write a w).read a = w ∧ ∀ b, b ≠ a → (m.write a w).read b = m.read b :=
  ⟨m.read_write_same a w, fun _ => m.read_write_other w⟩

/-- Settles O39: it holds, by the decoder's law, the class A check and the fields `setS` and `advance` write. -/
theorem ldaLoadsTheAccumulator : Obligations.LdaLoadsTheAccumulator := by
  refine fun opnd s => ⟨decode_ofInt (i := .lda opnd), fun hin => ?loads, fun hout => ?faults⟩
  case loads =>
    rw [exec_lda, direct_of_mem hin]
    rfl
  case faults => rw [exec_lda, direct_of_not_mem hout]

/-- Settles O40: it holds; the memory clauses are the read-after-write law at cell `opnd`. -/
theorem staStoresTheAccumulator : Obligations.StaStoresTheAccumulator := by
  refine fun opnd s => ⟨decode_ofInt (i := .sta opnd), fun hin => ?stores, fun hout => ?faults⟩
  case stores =>
    refine ⟨(s.store opnd.toNat s.S).advance, ?next, rfl, s.mem.read_write opnd.toNat s.S⟩
    rw [exec_sta, direct_of_mem hin]
  case faults => rw [exec_sta, direct_of_not_mem hout]

/-- Settles O41: it holds. The Word loaded into `S` is read from the memory before the store, so the exchange
needs no case for the cell. -/
theorem xchgSwapsAccumulatorAndCell : Obligations.XchgSwapsAccumulatorAndCell := by
  refine fun opnd s => ⟨decode_ofInt (i := .xchg opnd), fun hin => ?swaps, fun hout => ?faults⟩
  case swaps =>
    refine ⟨((s.store opnd.toNat s.S).setS (s.load opnd.toNat)).advance, ?next, rfl,
      s.mem.read_write opnd.toNat s.S⟩
    rw [exec_xchg, direct_of_mem hin]
  case faults => rw [exec_xchg, direct_of_not_mem hout]

end Sys2Proof.Machine
end

section
/-! JMP and JZ (44_control_flow.md R200 to R202): the class J check by the bounds of the operand, the two ways
of a conditional jump, and when the sign of a Word is `O`. -/

namespace Sys2Proof

/-- The sign of a Word is `O` exactly where its value is 0 (R110). -/
theorem Word.sign_eq_O_iff (w : Word) : w.sign = .O ↔ w.val = 0 := by
  unfold Word.sign
  split
  case isTrue hneg =>
    have hne : w.val ≠ 0 := by omega
    simp [hne]
  case isFalse =>
    split
    case isTrue hzero => simp [hzero]
    case isFalse hne => simp [hne]

end Sys2Proof

namespace Sys2Proof.Machine

/-- Class J with `opnd` in 0 to 161 runs the body at that target (R76). -/
theorem target_of_mem {opnd : Int} (h : 0 ≤ opnd ∧ opnd ≤ 161) (body : Int → Result) :
    target opnd body = body opnd :=
  target_valid ((validAddress_iff opnd).2 h) body

/-- Class J with any other `opnd` is AddressFault before the body asks whether to jump (R76, R207). -/
theorem target_of_not_mem {opnd : Int} (h : opnd < 0 ∨ 161 < opnd) (body : Int → Result) :
    target opnd body = .fault .addressFault :=
  target_invalid ((validAddress_false_iff opnd).2 h) body

/-- A target in memory is a Word's value, so `word(opnd)` stands for it exactly (R101). -/
theorem val_ofInt_target {opnd : Int} (h : 0 ≤ opnd ∧ opnd ≤ 161) : (Word.ofInt opnd).val = opnd := by
  have hrange : -9841 ≤ opnd ∧ opnd ≤ 9841 := by omega
  exact Word.val_ofInt hrange

/-- A conditional jump whose condition holds goes to the target (R200). -/
theorem jumpIf_of_holds {p : Prop} [Decidable p] (h : p) (t : Int) (s : State) :
    jumpIf (decide p) t s = s.jumpTo t :=
  if_pos (decide_eq_true h)

/-- A conditional jump whose condition fails falls through (R200). -/
theorem jumpIf_of_fails {p : Prop} [Decidable p] (h : ¬ p) (t : Int) (s : State) :
    jumpIf (decide p) t s = s.advance :=
  if_neg (mt of_decide_eq_true h)

/-- Settles O51: it holds; the next state is `s.jumpTo opnd`, and the target check keeps `opnd` in the range of a
Word, so `C` gets that very value. -/
theorem jmpGoesToItsTarget : Obligations.JmpGoesToItsTarget := by
  refine fun opnd s => ⟨decode_ofInt (i := .jmp opnd), fun hin => ?jumps, fun hout => ?faults⟩
  case jumps =>
    refine ⟨s.jumpTo opnd, ?next, rfl, val_ofInt_target hin⟩
    rw [exec_jmp, target_of_mem hin]
  case faults => rw [exec_jmp, target_of_not_mem hout]

/-- Settles O52: it holds. The target check comes before the latch is read, so the fault needs no case for
`omega`; behind it JZ is the conditional jump on `omega = O`. -/
theorem jzJumpsOnZero : Obligations.JzJumpsOnZero := by
  refine fun opnd s => ⟨decode_ofInt (i := .jz opnd),
    fun hin => ⟨fun hzero => ?taken, fun hnonzero => ?fallsThrough, val_ofInt_target hin⟩,
    fun hout => ?faults, fun hlatch => ?latch⟩
  case taken =>
    rw [exec_jz, target_of_mem hin, jumpIf_of_holds hzero]
    rfl
  case fallsThrough =>
    rw [exec_jz, target_of_mem hin, jumpIf_of_fails hnonzero]
    rfl
  case faults => rw [exec_jz, target_of_not_mem hout]
  case latch => rw [hlatch, Word.sign_eq_O_iff]

end Sys2Proof.Machine
end

section
/-! HLT and NOP (46_system.md R231, R232): what a halted engine answers to steps and runs (R132, R140, R142),
and the step and the trace of a running engine from the arm of its fetched instruction. -/

namespace Sys2Proof.Machine

/-- A halted engine's run ends at once, whatever the bound (R140). -/
theorem run_halted {s : State} (h : s.RUN = false) (n : Nat) : run n s = (.halted, s) := by
  unfold run
  rw [h]

/-- The no-op step of a halted engine leaves no trace record (R142). -/
theorem stepTrace_halted {s : State} (h : s.RUN = false) : stepTrace s = [] := by
  unfold stepTrace
  rw [h]

/-- A halted engine's run leaves no trace record: out of budget it takes no step, and any step is the no-op. -/
theorem runTrace_halted {s : State} (h : s.RUN = false) (n : Nat) : runTrace n s = [] := by
  unfold runTrace
  cases n with
  | zero => rfl
  | succ n =>
    rw [engineStep_halted h]
    exact stepTrace_halted h

/-- A running engine with `C` at a cell executes what the Word there decodes to (R133 to R135). -/
theorem step_fetched {s : State} (hr : s.RUN = true) (hC : 0 ≤ s.C.val ∧ s.C.val ≤ 161) :
    step s = exec (decode (s.mem.read s.C.val.toNat)) s := by
  rw [step_running hr]
  unfold fetchDecodeExecute
  rw [fetch_valid ((validAddress_iff _).2 hC)]

/-- A completed step of a running engine leaves one record, of the instruction fetched (R142). -/
theorem stepTrace_next {s t : State} (hr : s.RUN = true) (hC : 0 ≤ s.C.val ∧ s.C.val ≤ 161)
    (h : step s = .next t) :
    stepTrace s = [{ pre := s, instr := decode (s.mem.read s.C.val.toNat), post := t }] := by
  unfold stepTrace
  rw [hr, fetch_valid ((validAddress_iff _).2 hC), h]

/-- Settles O57: it holds. HLT's next state is halted, and each clause on what comes afterwards is the rule of
one host operation on a halted engine. -/
theorem hltHaltsForGood : Obligations.HltHaltsForGood := by
  intro opnd s
  have hhalted : s.halt.advance.RUN = false := State.advance_RUN s.halt
  refine ⟨decode_ofInt (i := .hlt opnd), s.halt.advance, exec_hlt opnd s, rfl, ?fetched,
    fun n => ⟨engineStep_halted hhalted, run_halted hhalted n, runTrace_halted hhalted n⟩,
    fun _ _ hload => (loadImage_RUN hload).trans hhalted, rfl⟩
  case fetched =>
    intro hr hC hdecode
    have hstep : step s = .next s.halt.advance := by rw [step_fetched hr hC, hdecode, exec_hlt]
    constructor
    · rw [engineStep_next hr hstep, hhalted]
      rfl
    · rw [stepTrace_next hr hC hstep, hdecode]

/-- Settles O58: it holds. At address 161 the advance stores 162, which a Word holds exactly, and from there the
fetch faults. -/
theorem nopOnlyAdvances : Obligations.NopOnlyAdvances := by
  refine fun opnd s => ⟨decode_ofInt (i := .nop opnd), s.advance, exec_nop opnd s, rfl, fun hlast => ?last⟩
  case last =>
    have hC : s.advance.C.val = 162 := by
      rw [State.advance_C, hlast]
      rfl
    have hout : s.advance.C.val < 0 ∨ 161 < s.advance.C.val := by omega
    exact ⟨hC, fun hr => (fetchFaultsOutsideMemory s.advance).2 hout ((State.advance_RUN s).trans hr)⟩

end Sys2Proof.Machine
end

section
/-! The tokens of a line (47_assembler.md R241, R263): a comment ends the line, and a space or tab parts the
tokens before it from those after it. -/

namespace Sys2Proof.Machine

/-- The text has at least one piece, which may be empty. -/
theorem splitAll_ne_nil (p : Char → Bool) (l : List Char) : splitAll p l ≠ [] := by
  cases l with
  | nil => exact List.cons_ne_nil _ _
  | cons c l =>
    unfold splitAll
    split
    · exact List.cons_ne_nil _ _
    · split <;> exact List.cons_ne_nil _ _

/-- A separator cuts the text in two: the pieces are those before it, then those after it. -/
theorem splitAll_append_cons {p : Char → Bool} {b : Char} (hb : p b = true) (l r : List Char) :
    splitAll p (l ++ b :: r) = splitAll p l ++ splitAll p r := by
  induction l with
  | nil => simp [splitAll, hb]
  | cons c l ih =>
    rw [List.cons_append, splitAll, splitAll, ih]
    split
    · rfl
    · cases hl : splitAll p l with
      | nil => exact absurd hl (splitAll_ne_nil p l)
      | cons piece pieces => rfl

/-- A comment is no part of the line (R241). -/
theorem stripComment_append_comment (l comment : List Char) :
    stripComment (l ++ ';' :: comment) = stripComment l := by
  induction l with
  | nil => rfl
  | cons c l ih =>
    unfold stripComment at ih ⊢
    rw [List.cons_append, List.takeWhile_cons, List.takeWhile_cons, ih]

/-- A line without `;` has no comment (R241). -/
theorem stripComment_append_of_not_mem {l : List Char} (h : ';' ∉ l) (r : List Char) :
    stripComment (l ++ r) = l ++ stripComment r :=
  List.takeWhile_append_of_pos fun _ hc => decide_eq_true fun heq => h (heq ▸ hc)

/-- A comment adds no token (R263). -/
theorem tokens_append_comment (l comment : List Char) : tokens (l ++ ';' :: comment) = tokens l := by
  unfold tokens
  rw [stripComment_append_comment]

/-- What follows in a comment adds no token. -/
theorem tokens_append_of_mem {l : List Char} (h : ';' ∈ l) (r : List Char) :
    tokens (l ++ r) = tokens l := by
  obtain ⟨before, comment, rfl⟩ := List.append_of_mem h
  rw [List.append_assoc, List.cons_append, tokens_append_comment, tokens_append_comment]

/-- Outside a comment a space or tab parts the tokens of a line in two (R241). -/
theorem tokens_append_blank_cons {b : Char} (hb : b = ' ' ∨ b = '\t') {l : List Char} (hl : ';' ∉ l)
    (r : List Char) : tokens (l ++ b :: r) = tokens l ++ tokens r := by
  have hline : stripComment l = l := by simpa [stripComment] using stripComment_append_of_not_mem hl []
  have hblank : stripComment (b :: r) = b :: stripComment r :=
    stripComment_append_of_not_mem (l := [b]) (by rcases hb with rfl | rfl <;> decide) r
  unfold tokens
  rw [stripComment_append_of_not_mem hl, hline, hblank, splitAll_append_cons (by simpa using hb),
    List.filter_append]

/-- A space or tab before the line changes no token (R263). -/
theorem tokens_blank_cons {c : Char} (hc : c = ' ' ∨ c = '\t') (l : List Char) :
    tokens (c :: l) = tokens l :=
  tokens_append_blank_cons hc (List.not_mem_nil (a := ';')) l

/-- A space or tab after the line changes no token (R263). -/
theorem tokens_append_blank {c : Char} (hc : c = ' ' ∨ c = '\t') (l : List Char) :
    tokens (l ++ [c]) = tokens l := by
  by_cases hl : ';' ∈ l
  · exact tokens_append_of_mem hl [c]
  · exact (tokens_append_blank_cons hc hl []).trans (List.append_nil _)

/-- A second space or tab beside one changes no token (R263). -/
theorem tokens_append_blank_blank {b c : Char} (hb : b = ' ' ∨ b = '\t') (hc : c = ' ' ∨ c = '\t')
    (l r : List Char) : tokens (l ++ b :: c :: r) = tokens (l ++ b :: r) := by
  by_cases hl : ';' ∈ l
  · rw [tokens_append_of_mem hl, tokens_append_of_mem hl]
  · rw [tokens_append_blank_cons hb hl, tokens_append_blank_cons hb hl, tokens_blank_cons hc]

end Sys2Proof.Machine
end

section
/-! The assembler up to the line that an error report names: what it answers is a function of the tokens on the
non-empty lines (47_assembler.md R263). The lines that pass 1 keeps with its emissions serve error reports
only, so both passes are followed with those lines blanked. -/

namespace Sys2Proof.Machine

/-- The line that stands for every line. -/
def SourceLine.blank : SourceLine := { number := 0, text := [] }

/-- An emission without the line it came from. -/
def Emission.unlined (e : Emission) : Emission := { e with line := .blank }

/-- A state of pass 1 without the lines its emissions came from. -/
def Pass1.unlined (p : Pass1) : Pass1 := { p with emissions := p.emissions.map Emission.unlined }

/-- The token lists of a source's non-empty lines, in order. -/
def sourceTokens (lines : List SourceLine) : List (List (List Char)) :=
  (lines.map fun l => tokens l.text).filter fun ts => !ts.isEmpty

/-- Pass 1 on token lists instead of lines. -/
def pass1Tokens : List (List (List Char)) → Pass1 → Except AsmErrorKind Pass1
  | [], p => .ok p
  | ts :: rest, p => p.statement .blank ts >>= pass1Tokens rest

/-- The assembler on token lists: the image, or the kind of the first error. -/
def assembleTokens (tss : List (List (List Char))) : Except AsmErrorKind Image :=
  pass1Tokens tss Pass1.start >>= fun p =>
    ((pass2 p.labels p.emissions).mapError AsmError.kind).map fun cells =>
      { cells := cells, labels := p.labels, entry := entryOf p.emissions }

/-- Binding a label reads and keeps no line. -/
theorem Pass1.bindLabel_unlined (p : Pass1) (label : Option (List Char)) :
    p.unlined.bindLabel label = (p.bindLabel label).map Pass1.unlined := by
  cases label with
  | none => rfl
  | some name =>
    unfold Pass1.bindLabel
    cases h : lookupLabel name p.labels <;> simp [Pass1.unlined, h, Except.map]

/-- Emitting keeps the line and does not read it. -/
theorem Pass1.emitItem_unlined (p : Pass1) (item : Item) (line : SourceLine) :
    p.unlined.emitItem item .blank = (p.emitItem item line).map Pass1.unlined := by
  have hany : p.unlined.emissions.any (fun e => decide (e.addr = p.counter)) =
      p.emissions.any fun e => decide (e.addr = p.counter) := List.any_map
  have hcounter : p.unlined.counter = p.counter := rfl
  unfold Pass1.emitItem
  rw [hcounter, hany]
  split
  · rfl
  · rfl
  · simp [Pass1.unlined, Emission.unlined, Except.map]

theorem Pass1.perform_unlined (p : Pass1) (line : SourceLine) (action : Action) :
    p.unlined.perform .blank action = (p.perform line action).map Pass1.unlined := by
  cases action with
  | nothing => rfl
  | org n => rfl
  | emit item => exact p.emitItem_unlined item line

/-- What a statement does does not depend on the line its tokens stand on. -/
theorem Pass1.statement_unlined (p : Pass1) (line : SourceLine) (ts : List (List Char)) :
    p.unlined.statement .blank ts = (p.statement line ts).map Pass1.unlined := by
  unfold Pass1.statement
  cases splitLabel ts with
  | error k => rfl
  | ok parts =>
    obtain ⟨label, rest⟩ := parts
    dsimp only
    rw [p.bindLabel_unlined]
    cases p.bindLabel label with
    | error k => rfl
    | ok bound =>
      cases parseRest rest with
      | error k => rfl
      | ok action => exact bound.perform_unlined line action

/-- A line without tokens produces nothing (R241). -/
theorem Pass1.statement_nil (p : Pass1) (line : SourceLine) : p.statement line [] = .ok p := rfl

/-- Pass 1 performs the first line, then the rest; the error of either ends it (R248, R260). -/
theorem pass1_cons_mapError (line : SourceLine) (lines : List SourceLine) (p : Pass1) :
    (pass1 (line :: lines) p).mapError AsmError.kind =
      p.statement line (tokens line.text) >>= fun q => (pass1 lines q).mapError AsmError.kind := by
  rw [pass1]
  cases p.statement line (tokens line.text) <;> rfl

/-- To leave a line without tokens out is the same as to perform it. -/
theorem pass1Tokens_sourceTokens_cons (line : SourceLine) (lines : List SourceLine) (p : Pass1) :
    pass1Tokens (sourceTokens (line :: lines)) p =
      p.statement .blank (tokens line.text) >>= pass1Tokens (sourceTokens lines) := by
  unfold sourceTokens
  cases h : tokens line.text with
  | nil =>
    rw [p.statement_nil]
    simp only [List.map_cons, h]
    rfl
  | cons t ts =>
    simp only [List.map_cons, h]
    rfl

/-- Pass 1 is a function of the token lists of the non-empty lines, up to the lines it reports. -/
theorem pass1_unlined (lines : List SourceLine) (p : Pass1) :
    ((pass1 lines p).mapError AsmError.kind).map Pass1.unlined =
      pass1Tokens (sourceTokens lines) p.unlined := by
  induction lines generalizing p with
  | nil => rfl
  | cons line lines ih =>
    rw [pass1_cons_mapError, pass1Tokens_sourceTokens_cons, p.statement_unlined line]
    cases p.statement line (tokens line.text) with
    | error k => rfl
    | ok q => exact ih q

/-- Pass 2 resolves the first emission, then the rest; the error of either ends it (R254, R260). -/
theorem pass2_cons_mapError (labels : List (List Char × Int)) (e : Emission) (es : List Emission) :
    (pass2 labels (e :: es)).mapError AsmError.kind =
      itemWord labels e.item >>= fun w =>
        ((pass2 labels es).mapError AsmError.kind).map (insertImageCell e.addr w) := by
  rw [pass2]
  cases itemWord labels e.item with
  | error k => rfl
  | ok w => cases pass2 labels es <;> rfl

/-- Pass 2 reads the lines for its report only. -/
theorem pass2_unlined (labels : List (List Char × Int)) (es : List Emission) :
    (pass2 labels (es.map Emission.unlined)).mapError AsmError.kind =
      (pass2 labels es).mapError AsmError.kind := by
  induction es with
  | nil => rfl
  | cons e es ih =>
    rw [List.map_cons, pass2_cons_mapError, pass2_cons_mapError, ih]
    rfl

theorem entryOf_unlined (es : List Emission) : entryOf (es.map Emission.unlined) = entryOf es := by
  induction es with
  | nil => rfl
  | cons e es ih =>
    rw [List.map_cons, entryOf, entryOf, ih]
    rfl

/-- What the assembler answers, up to the line of an error report, is a function of the tokens on the non-empty
lines (R263). -/
theorem assemble_eq_assembleTokens (src : List Char) :
    (assemble src).mapError AsmError.kind = assembleTokens (sourceTokens (sourceLines src)) := by
  have hstart : Pass1.start.unlined = Pass1.start := rfl
  unfold assemble assembleTokens
  rw [← hstart, ← pass1_unlined, hstart]
  cases pass1 (sourceLines src) Pass1.start with
  | error e => rfl
  | ok p =>
    have hpass2 := pass2_unlined p.labels p.emissions
    have hentry := entryOf_unlined p.emissions
    simp only [Except.mapError, Except.map, bind, Except.bind, Pass1.unlined] at hpass2 ⊢
    rw [hpass2, hentry]
    cases pass2 p.labels p.emissions <;> rfl

/-- Renaming the errors keeps the results. -/
theorem mapError_eq_ok_iff {ε ε' α : Type} {f : ε → ε'} {x : Except ε α} {a : α} :
    x.mapError f = .ok a ↔ x = .ok a := by
  cases x <;> simp [Except.mapError]

/-- The errors after renaming are the renamed errors. -/
theorem mapError_eq_error_iff {ε ε' α : Type} {f : ε → ε'} {x : Except ε α} {k : ε'} :
    x.mapError f = .error k ↔ ∃ e, x = .error e ∧ f e = k := by
  cases x <;> simp [Except.mapError]

/-- Settles O37: it holds. The first clause compares two values of `assembleTokens`; the others are the laws of
`tokens` on a comment and on spaces and tabs. -/
theorem layoutNeverChangesTheImage : Obligations.LayoutNeverChangesTheImage := by
  refine ⟨fun src src' htokens => ?sameTokens, tokens_append_comment, fun l r b c hb hc =>
    ⟨tokens_append_blank_blank hb hc l r, tokens_blank_cons hc l, tokens_append_blank hc l⟩⟩
  case sameTokens =>
    have hsame : (assemble src).mapError AsmError.kind = (assemble src').mapError AsmError.kind :=
      calc (assemble src).mapError AsmError.kind
        _ = assembleTokens (sourceTokens (sourceLines src)) := assemble_eq_assembleTokens src
        _ = assembleTokens (sourceTokens (sourceLines src')) := congrArg assembleTokens htokens
        _ = (assemble src').mapError AsmError.kind := (assemble_eq_assembleTokens src').symm
    constructor
    · intro img
      rw [← mapError_eq_ok_iff (f := AsmError.kind), hsame, mapError_eq_ok_iff]
    · intro k
      rw [← mapError_eq_error_iff, hsame, mapError_eq_error_iff]

end Sys2Proof.Machine
end

section
/-! A faulted step (60_exceptions.md R283): its state is the one before, and the trace callback is not called. -/

namespace Sys2Proof.Machine

/-- The status after a completed step is `Continue` or `Halted`, as `RUN` says, and no fault (R138). -/
theorem status_of_next_ne_fault (t : State) (k : Fault) :
    (if t.RUN then Status.continuing else .halted) ≠ .fault k := by
  split <;> exact Status.noConfusion

/-- What an engine's step answering a fault was: the engine stays where it was, and its step gave no next state.
A halted engine and a completed step answer other statuses. -/
theorem engineStep_eq_fault {s t : State} {k : Fault} (h : engineStep s = (.fault k, t)) :
    t = s ∧ ∀ u, step s ≠ .next u := by
  cases hr : s.RUN with
  | false =>
    rw [engineStep_halted hr] at h
    cases h
  | true =>
    cases hstep : step s with
    | next u =>
      rw [engineStep_next hr hstep] at h
      exact absurd (congrArg Prod.fst h) (status_of_next_ne_fault u k)
    | fault _ | refused _ =>
      unfold engineStep at h
      rw [hr, hstep] at h
      cases h
      exact ⟨rfl, fun _ => nofun⟩

/-- Only a completed step leaves a trace record (R142). -/
theorem stepTrace_eq_nil {s : State} (h : ∀ u, step s ≠ .next u) : stepTrace s = [] := by
  unfold stepTrace
  split
  next hstep => exact absurd hstep (h _)
  next => rfl

/-- Settles O18: it holds. The one inversion of a fault answer gives the state, and, the step having no next
state, the trace is empty. -/
theorem faultLeavesStateUnchanged : Obligations.FaultLeavesStateUnchanged := by
  intro s t k h
  obtain ⟨hstate, hnot⟩ := engineStep_eq_fault h
  exact ⟨hstate, stepTrace_eq_nil hnot⟩

end Sys2Proof.Machine
end

section
/-! The decoder and the encoder are inverse to each other (30_encoding.md R72 to R75): a decoded instruction has
the Word's own fields for its opcode and operand. -/

namespace Sys2Proof

/-- The decoded instruction carries the operand field's value, whatever its row (R74). -/
@[simp] theorem decode_opnd (w : Word) : (decode w).opnd = w.opndField := by
  unfold decode
  split <;> rfl

/-- The decoded row's opcode value is that of the opcode field: one case per row of the map (R74). -/
@[simp] theorem decode_opc (w : Word) : (decode w).opc = w.opcField := by
  unfold decode Word.opcField
  split <;> simp_all [Instr.opc, Trit.toInt]

/-- The rows left undefined are those of the opcode values −13, 0 and 13 (R75). -/
theorem Instr.undefined_iff_opc (i : Instr) :
    i.undefined = true ↔ i.opc = -13 ∨ i.opc = 0 ∨ i.opc = 13 := by
  cases i <;> simp [Instr.undefined, Instr.opc]

/-- An instruction whose operand fits the six operand trits is well formed (R73). -/
theorem Instr.wf_of_bounds {i : Instr} (h : -364 ≤ i.opnd ∧ i.opnd ≤ 364) : i.wf = true := by
  rw [Instr.wf, Bool.and_eq_true, decide_eq_true_eq, decide_eq_true_eq]
  exact h

/-- Settles O1: it holds; `encode i` is `word(opc * 729 + opnd)`, which decodes to `i`. -/
theorem decodeAfterEncodeIsIdentity : Obligations.DecodeAfterEncodeIsIdentity :=
  fun _ hwf => decode_ofInt (Instr.wf_bounds hwf)

/-- Settles O2: it holds. The decoded opcode and operand are the Word's fields, which make up its value. -/
theorem encodeAfterDecodeIsIdentity : Obligations.EncodeAfterDecodeIsIdentity := by
  intro w
  constructor
  · exact Instr.wf_of_bounds (by rw [decode_opnd]; exact w.opndField_bounds)
  · have hvalue : (decode w).opc * Config.opdMod + (decode w).opnd = w.val := by
      rw [decode_opc, decode_opnd]
      exact w.val_eq_fields.symm
    rw [encode, hvalue, Word.ofInt_val]

/-- Settles O3: it holds, each Word's trits selecting its row and summing to its operand. -/
theorem writtenOutWordsDecode : Obligations.WrittenOutWordsDecode :=
  ⟨rfl, rfl, rfl, rfl, rfl, rfl⟩

/-- Settles O4: it holds. An opcode value takes the 729 values around its multiple of 729. -/
theorem undefinedWordsAreThreeRanges : Obligations.UndefinedWordsAreThreeRanges := by
  intro w
  have hval := w.val_eq_fields
  have hopc := w.opcField_bounds
  have hopnd := w.opndField_bounds
  rw [Instr.undefined_iff_opc, decode_opc]
  omega

end Sys2Proof
end

section
/-! `exec` against the table of causes (60_exceptions.md R287): the operand's class first, then the divisor; where
neither gives a fault the instruction completes. -/

namespace Sys2Proof.Machine

/-- A halted engine's step is the no-op (R132). -/
theorem step_halted {s : State} (h : s.RUN = false) : step s = .next s := by
  unfold step cycle
  rw [h]

/-- The address check raises nothing exactly at the address of a cell (R284). -/
theorem addressCheck_eq_none_iff (a : Int) : addressCheck a = none ↔ validAddress a = true := by
  unfold addressCheck
  cases validAddress a <;> simp

/-- The only fault of the address check is AddressFault (R284). -/
theorem addressCheck_eq_some {a : Int} {k : Fault} (h : addressCheck a = some k) :
    validAddress a = false ∧ k = .addressFault := by
  unfold addressCheck at h
  cases hv : validAddress a with
  | true => simp [hv] at h
  | false => exact ⟨rfl, by simpa [hv] using h.symm⟩

/-- An instruction whose operand check faults is that fault: classes A, J and X at a bad address, and the
undefined rows always. -/
theorem exec_of_operandFault {i : Instr} {s : State} {k : Fault} (h : operandFault i s = some k) :
    exec i s = .fault k := by
  cases i with
  | mul n | sub n | add n | stf n | ldf n | str n | ldr n | xchg n | sta n | lda n | div n =>
    obtain ⟨hv, rfl⟩ := addressCheck_eq_some (a := n) h
    simp only [exec_mul, exec_sub, exec_add, exec_stf, exec_ldf, exec_str, exec_ldr, exec_xchg, exec_sta,
      exec_lda, exec_div, direct_invalid hv, raise]
  | stx n | ldx n =>
    obtain ⟨hv, rfl⟩ := addressCheck_eq_some (a := effectiveAddress n s) h
    simp only [exec_stx, exec_ldx, indexed_invalid hv, raise]
  | jmp n | jz n | jp n | jn n | loop n =>
    obtain ⟨hv, rfl⟩ := addressCheck_eq_some (a := n) h
    simp only [exec_jmp, exec_jz, exec_jp, exec_jn, exec_loop, target_invalid hv, raise]
  | neg n | nop n | sha n | shd n | xsr n | hlt n => cases h
  | undefNnn n | undefOoo n | undefPpp n =>
    cases h
    rfl

/-- Past its operand check a DIV by zero is RangeError (R184). -/
theorem exec_of_dividesByZero {i : Instr} {s : State} (hop : operandFault i s = none)
    (hdiv : dividesByZero s i = true) : exec i s = .fault .rangeError := by
  cases i with
  | div n =>
    have hv : validAddress n = true := (addressCheck_eq_none_iff n).1 hop
    rw [exec_div, direct_valid hv, if_pos (of_decide_eq_true hdiv)]
    rfl
  | _ => cases hdiv

/-- Past its operand and divisor checks an instruction completes, with the state its arm writes. -/
theorem exec_of_no_fault {i : Instr} {s : State} (hop : operandFault i s = none)
    (hdiv : dividesByZero s i = false) : exec i s = .next (completed i s) := by
  cases i with
  | mul n | sub n | add n | stf n | ldf n | str n | ldr n | xchg n | sta n | lda n =>
    have hv : validAddress n = true := (addressCheck_eq_none_iff n).1 hop
    simp only [exec_mul, exec_sub, exec_add, exec_stf, exec_ldf, exec_str, exec_ldr, exec_xchg, exec_sta,
      exec_lda, direct_valid hv, completed]
  | stx n | ldx n =>
    have hv : validAddress (effectiveAddress n s) = true := (addressCheck_eq_none_iff _).1 hop
    simp only [exec_stx, exec_ldx, indexed_valid hv, completed]
  | jmp n | jz n | jp n | jn n | loop n =>
    have hv : validAddress n = true := (addressCheck_eq_none_iff n).1 hop
    simp only [exec_jmp, exec_jz, exec_jp, exec_jn, exec_loop, target_valid hv, completed]
  | div n =>
    rw [exec_div, direct_valid ((addressCheck_eq_none_iff n).1 hop), if_neg (of_decide_eq_false hdiv)]
    rfl
  | neg n | nop n | sha n | shd n | xsr n | hlt n => rfl
  | undefNnn n | undefOoo n | undefPpp n => cases hop

/-- What an instruction answering a next state was: its checks passed, and it left the state its arm writes. -/
theorem exec_next {i : Instr} {s t : State} (h : exec i s = .next t) :
    operandFault i s = none ∧ t = completed i s := by
  refine ⟨?checked, exec_next_eq h⟩
  cases hop : operandFault i s with
  | none => rfl
  | some k =>
    rw [exec_of_operandFault hop] at h
    cases h

/-- What a completed step of a running engine was, with the operand check its instruction passed. -/
theorem step_next_checked {s t : State} (hr : s.RUN = true) (h : step s = .next t) :
    (0 ≤ s.C.val ∧ s.C.val ≤ 161) ∧ operandFault (decode (s.mem.read s.C.val.toNat)) s = none ∧
      t = completed (decode (s.mem.read s.C.val.toNat)) s := by
  obtain ⟨hhalted, -⟩ | ⟨-, hC, hexec⟩ := step_next h
  · rw [hr] at hhalted
    cases hhalted
  · exact ⟨(validAddress_iff _).1 hC, exec_next hexec⟩

/-- A step of a state with a cause in the table is that fault (R287). -/
theorem step_of_faultOf_some {s : State} {k : Fault} (h : faultOf s = some k) : step s = .fault k := by
  unfold faultOf at h
  cases hr : s.RUN with
  | false => simp [hr] at h
  | true =>
    cases hC : addressCheck s.C.val with
    | some j =>
      obtain ⟨hv, rfl⟩ := addressCheck_eq_some hC
      have hk : k = .addressFault := by simpa [hr, hC] using h.symm
      rw [step_running hr, hk]
      exact fetchDecodeExecute_fetch_error (fetch_invalid hv)
    | none =>
      have hv := (validAddress_iff _).1 ((addressCheck_eq_none_iff _).1 hC)
      rw [step_fetched hr hv]
      cases hop : operandFault (decode (s.mem.read s.C.val.toNat)) s with
      | some j =>
        have hk : j = k := by simpa [hr, hC, hop] using h
        rw [exec_of_operandFault hop, hk]
      | none =>
        cases hdiv : dividesByZero s (decode (s.mem.read s.C.val.toNat)) with
        | true =>
          have hk : Fault.rangeError = k := by simpa [hr, hC, hop, hdiv] using h
          rw [exec_of_dividesByZero hop hdiv, hk]
        | false => simp [hr, hC, hop, hdiv] at h

/-- A step of a state without a cause in the table completes (R138, R287). -/
theorem step_of_faultOf_none {s : State} (h : faultOf s = none) : ∃ t, step s = .next t := by
  unfold faultOf at h
  cases hr : s.RUN with
  | false => exact ⟨s, step_halted hr⟩
  | true =>
    cases hC : addressCheck s.C.val with
    | some j => simp [hr, hC] at h
    | none =>
      have hv := (validAddress_iff _).1 ((addressCheck_eq_none_iff _).1 hC)
      cases hop : operandFault (decode (s.mem.read s.C.val.toNat)) s with
      | some j => simp [hr, hC, hop] at h
      | none =>
        cases hdiv : dividesByZero s (decode (s.mem.read s.C.val.toNat)) with
        | true => simp [hr, hC, hop, hdiv] at h
        | false => exact ⟨_, (step_fetched hr hv).trans (exec_of_no_fault hop hdiv)⟩

/-- Settles O19: it holds. The table gives a cause or none; the step is that fault or completes, and no answer is
both. -/
theorem stepFaultsFollowTheTable : Obligations.StepFaultsFollowTheTable := by
  intro s
  cases h : faultOf s with
  | some j =>
    have hstep := step_of_faultOf_some h
    simp [hstep]
  | none =>
    obtain ⟨t, hstep⟩ := step_of_faultOf_none h
    simp [hstep]

/-- Settles O15: it holds, the step being stages 1 to 4 of the cycle with a fetch that succeeds. -/
theorem stepRunsDecodedInstruction : Obligations.StepRunsDecodedInstruction := by
  intro s i hr hlo hhi hdecode
  rw [step_fetched hr ⟨hlo, hhi⟩, hdecode]

/-- Settles O17: it holds, one rule of a halted engine for each operation. -/
theorem haltedEngineStaysAsItIs : Obligations.HaltedEngineStaysAsItIs :=
  fun _ n h => ⟨step_halted h, engineStep_halted h, run_halted h n, runTrace_halted h n⟩

/-- The undefined rows are the instructions whose operand check is DecodeError (R75, R285). -/
theorem operandFault_eq_decodeError_iff (i : Instr) (s : State) :
    operandFault i s = some .decodeError ↔ i.undefined = true := by
  cases i <;> simp [operandFault, Instr.opClass, Instr.undefined, addressCheck] <;> split <;> simp

/-- A running engine at a cell stops with DecodeError exactly where the fetched row is undefined (R285). -/
theorem step_eq_decodeError_iff {s : State} (hr : s.RUN = true) (hC : 0 ≤ s.C.val ∧ s.C.val ≤ 161) :
    step s = .fault .decodeError ↔ (decode (s.mem.read s.C.val.toNat)).undefined = true := by
  rw [step_fetched hr hC, ← operandFault_eq_decodeError_iff _ s]
  cases hop : operandFault (decode (s.mem.read s.C.val.toNat)) s with
  | some k => simp [exec_of_operandFault hop]
  | none =>
    cases hdiv : dividesByZero s (decode (s.mem.read s.C.val.toNat)) with
    | true => simp [exec_of_dividesByZero hop hdiv]
    | false => simp [exec_of_no_fault hop hdiv]

/-- No step is refused. -/
theorem step_ne_refused (s : State) (r : Refusal) : step s ≠ .refused r := by
  cases h : faultOf s with
  | some k => simp [step_of_faultOf_some h]
  | none =>
    obtain ⟨t, hstep⟩ := step_of_faultOf_none h
    simp [hstep]

/-- An engine's step answers a fault exactly where the engine runs and its step is that fault; the state stays as
it was (R137). -/
theorem engineStep_eq_fault_iff {s t : State} {k : Fault} :
    engineStep s = (.fault k, t) ↔ s.RUN = true ∧ step s = .fault k ∧ t = s := by
  constructor
  · intro h
    obtain ⟨rfl, hnot⟩ := engineStep_eq_fault h
    cases hr : t.RUN with
    | false =>
      rw [engineStep_halted hr] at h
      cases h
    | true =>
      cases hstep : step t with
      | next u => exact absurd hstep (hnot u)
      | fault j =>
        rw [engineStep_fault hr hstep] at h
        cases h
        exact ⟨rfl, rfl, rfl⟩
      | refused r => exact absurd hstep (step_ne_refused t r)
  · rintro ⟨hr, hstep, rfl⟩
    exact engineStep_fault hr hstep

/-- Settles O59: it holds. The undefined rows are those whose operand check is DecodeError, no other cause is that
fault, and the decoded row has the Word's opcode value. -/
theorem undefinedOpcodesRaiseDecodeError : Obligations.UndefinedOpcodesRaiseDecodeError := by
  refine ⟨fun n s => ⟨exec_undefNnn n s, exec_undefOoo n s, exec_undefPpp n s⟩, fun s hr hlo => ?atCell⟩
  case atCell =>
    rw [← decode_opc, ← Instr.undefined_iff_opc, ← step_eq_decodeError_iff hr hlo, engineStep_eq_fault_iff]
    simp [hr]

end Sys2Proof.Machine
end

section
/-! What a completed instruction leaves unchanged (10_state.md section 2): one frame per register, flag and the
memory, each read off `completed`. -/

namespace Sys2Proof.Machine

/-- `S` and `omega` are written together, by eleven instructions only (R22, R26). -/
theorem completed_S_omega_of_ne {i : Instr}
    (h : ∀ n, i ≠ .lda n ∧ i ≠ .xchg n ∧ i ≠ .ldx n ∧ i ≠ .xsr n ∧ i ≠ .add n ∧ i ≠ .sub n ∧ i ≠ .mul n ∧
      i ≠ .div n ∧ i ≠ .neg n ∧ i ≠ .sha n ∧ i ≠ .shd n) (s : State) :
    (completed i s).S = s.S ∧ (completed i s).omega = s.omega := by
  cases i with
  | lda n | xchg n | ldx n | xsr n | add n | sub n | mul n | div n | neg n | sha n | shd n => simp at h
  | _ => simp [completed]

/-- `R` is written by LDR, XSR, MUL, DIV and SHD only (R23). -/
theorem completed_R_of_ne {i : Instr}
    (h : ∀ n, i ≠ .ldr n ∧ i ≠ .xsr n ∧ i ≠ .mul n ∧ i ≠ .div n ∧ i ≠ .shd n) (s : State) :
    (completed i s).R = s.R := by
  cases i with
  | ldr n | xsr n | mul n | div n | shd n => simp at h
  | _ => simp [completed]

/-- `F` is written by LDF and LOOP only (R24). -/
theorem completed_F_of_ne {i : Instr} (h : ∀ n, i ≠ .ldf n ∧ i ≠ .loop n) (s : State) :
    (completed i s).F = s.F := by
  cases i with
  | ldf n | loop n => simp at h
  | _ => simp [completed]

/-- `V` is written by ADD, SUB and LOOP only (R27). -/
theorem completed_V_of_ne {i : Instr} (h : ∀ n, i ≠ .add n ∧ i ≠ .sub n ∧ i ≠ .loop n) (s : State) :
    (completed i s).V = s.V := by
  cases i with
  | add n | sub n | loop n => simp at h
  | _ => simp [completed]

/-- Memory is written by STA, XCHG, STR, STF and STX only (R55). -/
theorem completed_mem_of_ne {i : Instr}
    (h : ∀ n, i ≠ .sta n ∧ i ≠ .xchg n ∧ i ≠ .str n ∧ i ≠ .stf n ∧ i ≠ .stx n) (s : State) :
    (completed i s).mem = s.mem := by
  cases i with
  | sta n | xchg n | str n | stf n | stx n => simp at h
  | _ => simp [completed]

/-- Settles O26: it holds, one frame of `completed` for each register, flag and the memory. -/
theorem onlyTheListedInstructionsWrite : Obligations.OnlyTheListedInstructionsWrite := by
  intro i s t h
  rw [exec_next_eq h]
  exact ⟨fun hne => completed_S_omega_of_ne hne s, fun hne => completed_R_of_ne hne s,
    fun hne => completed_F_of_ne hne s, fun hne => completed_V_of_ne hne s,
    fun hne => completed_RUN_of_ne_hlt hne s, fun hne => completed_mem_of_ne hne s⟩

/-- A set flag stays set whatever the carry (R27). -/
@[simp] theorem stickyOverflow_true (c : Trit) : stickyOverflow true c = true := rfl

/-- No instruction clears `V` (R27). -/
theorem completed_V_of_set {s : State} (hV : s.V = true) (i : Instr) : (completed i s).V = true := by
  cases i with
  | add n | sub n | loop n => simp [completed, hV]
  | _ => simpa [completed] using hV

/-- Settles O25: it holds. No arm clears `V`, and an instruction that is none of the three keeps it. -/
theorem overflowFlagIsSticky : Obligations.OverflowFlagIsSticky := by
  intro s t h
  cases hr : s.RUN with
  | false =>
    obtain rfl : s = t := by simpa [step_halted hr] using h
    exact ⟨id, fun hclear hset => by simp [hclear] at hset⟩
  | true =>
    rw [step_next_eq hr h]
    refine ⟨fun hset => completed_V_of_set hset _, fun hclear hset => ?setter⟩
    case setter =>
      by_contra hnone
      have hkept := completed_V_of_ne (by simpa [not_or] using hnone) s
      simp [hkept, hclear] at hset

end Sys2Proof.Machine
end

section
/-! The invariant of the machine (10_state.md section 2): what `completed` does to the canonical form of memory, to
the latch and to `C`, and that reset, steps and loads keep all three. -/

namespace Sys2Proof.Machine

/-- An instruction past its operand check keeps the canonical form: a write goes to an address of 0 to 161. -/
theorem completed_mem_wf {i : Instr} {s : State} (hop : operandFault i s = none) (hm : s.mem.wf = true) :
    (completed i s).mem.wf = true := by
  cases i with
  | sta n | xchg n | str n | stf n =>
    have haddr := validAddress_toNat ((addressCheck_eq_none_iff n).1 hop)
    simpa [completed] using Memory.wf_write _ haddr.1 hm
  | stx n =>
    have haddr := validAddress_toNat ((addressCheck_eq_none_iff (effectiveAddress n s)).1 hop)
    simpa [completed] using Memory.wf_write _ haddr.1 hm
  | _ => simpa [completed] using hm

/-- Every instruction keeps the latch the sign of `S`: an arm writes both or neither (R26). -/
theorem completed_latch {s : State} (h : s.omega = s.S.sign) (i : Instr) :
    (completed i s).omega = (completed i s).S.sign := by
  cases i with
  | lda n | xchg n | ldx n | xsr n | add n | sub n | mul n | div n | neg n | sha n | shd n =>
    simp [completed, signLatch]
  | _ => simpa [completed] using h

/-- Past its operand check an instruction advances `C` or sets it to a target of 0 to 161 (R135, R207). -/
theorem completed_C {i : Instr} {s : State} (hop : operandFault i s = none) :
    (completed i s).C = Word.ofInt (s.C.val + 1) ∨
      ∃ a, (0 ≤ a ∧ a ≤ 161) ∧ (completed i s).C = Word.ofInt a := by
  cases i with
  | jmp n => exact .inr ⟨n, (validAddress_iff n).1 ((addressCheck_eq_none_iff n).1 hop), State.jumpTo_C s n⟩
  | jz n | jp n | jn n | loop n =>
    have htarget := (validAddress_iff n).1 ((addressCheck_eq_none_iff n).1 hop)
    simp only [completed, jumpIf_C, State.noteCarry_C, State.setF_C]
    split
    · exact .inr ⟨n, htarget, rfl⟩
    · exact .inl rfl
  | undefNnn n | undefOoo n | undefPpp n => cases hop
  | _ => exact .inl (by simp [completed])

/-- A completed step of a running engine leaves `C` at a cell, or at 162 coming from address 161 (R25, R207). -/
theorem step_next_C {s t : State} (hr : s.RUN = true) (h : step s = .next t) :
    (0 ≤ t.C.val ∧ t.C.val ≤ 161) ∨ (t.C.val = 162 ∧ s.C.val = 161) := by
  obtain ⟨hC, hop, rfl⟩ := step_next_checked hr h
  obtain hadvance | ⟨a, ha, hjump⟩ := completed_C hop
  · have hval := Word.val_ofInt (n := s.C.val + 1) (by omega)
    rw [hadvance]
    omega
  · rw [hjump, val_ofInt_target ha]
    exact .inl ha

/-- Settles O27: it holds, by the two ways an instruction past its checks writes `C`. -/
theorem counterLeavesMemoryOnlyFromTheLastCell : Obligations.CounterLeavesMemoryOnlyFromTheLastCell :=
  fun _ _ hr h => step_next_C hr h

/-- Settles O20: it holds. A halted engine stays as it is; a running one's instruction keeps each of the three
parts. -/
theorem everyStepKeepsInvariant : Obligations.EveryStepKeepsInvariant := by
  intro s t hinv h
  cases hr : s.RUN with
  | false =>
    obtain rfl : s = t := by simpa [step_halted hr] using h
    exact hinv
  | true =>
    have hC := step_next_C hr h
    obtain ⟨-, hop, rfl⟩ := step_next_checked hr h
    exact { memory := completed_mem_wf hop hinv.memory
            latch := completed_latch hinv.latch _
            counterLow := by omega
            counterHigh := by omega }

/-- Settles O21: it holds; memory is empty and every register Word 0. -/
theorem resetHasInvariant : Obligations.ResetHasInvariant :=
  { memory := State.reset_mem_wf, latch := rfl, counterLow := by decide, counterHigh := by decide }

/-- A loadable image has its addresses and its entry in 0 to 161 (R141). -/
theorem Image.loadable_iff (img : Image) :
    img.loadable = true ↔ (∀ c ∈ img.cells, validAddress c.1 = true) ∧ validAddress img.entry = true := by
  rw [Image.loadable, Bool.and_eq_true, List.all_eq_true]

/-- An accepted load keeps the invariant: it writes cells only, sets `C` to one and leaves `S` and `omega`. -/
theorem loadImage_keeps_inv {img : Image} {s t : State} (hinv : Inv s) (h : loadImage img s = .ok t) : Inv t := by
  obtain ⟨hloadable, rfl⟩ := loadImage_ok h
  obtain ⟨hcells, hentry⟩ := img.loadable_iff.1 hloadable
  have hrange := (validAddress_iff _).1 hentry
  have hC := val_ofInt_target hrange
  exact { memory := loadCells_wf hcells hinv.memory
          latch := hinv.latch
          counterLow := hC.symm ▸ hrange.1
          counterHigh := by dsimp only; omega }

/-- Settles O22: it holds, reset having the invariant and steps and loads keeping it. -/
theorem reachableStatesHaveInvariant : Obligations.ReachableStatesHaveInvariant := by
  intro s hreach
  induction hreach with
  | reset => exact resetHasInvariant
  | step _ h ih => exact everyStepKeepsInvariant _ _ ih h
  | load _ h ih => exact loadImage_keeps_inv ih h

/-- Settles O23: it holds. The Word at address 0 is all `O`, whose row is undefined. -/
theorem resetStateAndItsFirstStep : Obligations.ResetStateAndItsFirstStep := by
  refine ⟨rfl, rfl, rfl, rfl, rfl, rfl, rfl, fun _ => rfl, ?firstStep⟩
  case firstStep =>
    have hstep : step State.reset = .fault .decodeError :=
      (step_eq_decodeError_iff rfl (by decide)).2 rfl
    exact engineStep_fault rfl hstep

end Sys2Proof.Machine
end

section
/-! The balanced numeral by its digits (40_numeral_alu.md R104, R105): dropping low trits divides to nearest and
keeps the order, and the trits of a Word are the digits of its value. -/

namespace Sys2Proof

/-- One more trit dropped, seen from the top. -/
theorem dropTrits_succ (k : Nat) (n : Int) : dropTrits (k + 1) n = dropTrit (dropTrits k n) := by
  induction k generalizing n with
  | zero => rfl
  | succ k ih => exact ih (dropTrit n)

/-- Dropping `i` trits and then `k` is dropping `i + k`. -/
theorem dropTrits_add (i k : Nat) (n : Int) : dropTrits i (dropTrits k n) = dropTrits (i + k) n := by
  induction k generalizing n with
  | zero => rfl
  | succ k ih => exact ih (dropTrit n)

/-- The digit at `k` and what is above it make up the numeral without its lowest `k` trits (R104). -/
theorem dropTrits_eq_digit_add (k : Nat) (n : Int) :
    dropTrits k n = (digit n k).toInt + 3 * dropTrits (k + 1) n := by
  rw [dropTrits_succ]
  exact lowTrit_dropTrit _

@[simp] theorem dropTrits_zero_right (k : Nat) : dropTrits k 0 = 0 := by
  induction k with
  | zero => rfl
  | succ k ih => exact ih

/-- Dropping low trits keeps the order. -/
theorem dropTrits_mono (k : Nat) {a b : Int} (h : a ≤ b) : dropTrits k a ≤ dropTrits k b := by
  induction k generalizing a b with
  | zero => exact h
  | succ k ih =>
    have hdrop : dropTrit a ≤ dropTrit b := by unfold dropTrit; omega
    exact ih hdrop

/-- Integers that differ after low trits are dropped were in that order before. -/
theorem lt_of_dropTrits_lt {k : Nat} {a b : Int} (h : dropTrits k a < dropTrits k b) : a < b := by
  by_contra hle
  exact absurd (dropTrits_mono k (not_lt.1 hle)) (not_le.2 h)

/-- Dropping `k` trits divides by 3^k to nearest: what is lost is less than half of 3^k. -/
theorem dropTrits_nearest (k : Nat) (n : Int) :
    2 * (n - dropTrits k n * 3 ^ k) < 3 ^ k ∧ -(3 ^ k : Int) < 2 * (n - dropTrits k n * 3 ^ k) := by
  induction k with
  | zero => simp [dropTrits]
  | succ k ih =>
    obtain ⟨hhi, hlo⟩ := ih
    have hpow : (0 : Int) < 3 ^ k := by positivity
    have hdigit := (digit n k).toInt_bounds
    have hsplit : n - dropTrits (k + 1) n * 3 ^ (k + 1) =
        (n - dropTrits k n * 3 ^ k) + (digit n k).toInt * 3 ^ k := by
      rw [dropTrits_eq_digit_add k n]
      ring
    have hup : (digit n k).toInt * 3 ^ k ≤ 1 * 3 ^ k := mul_le_mul_of_nonneg_right hdigit.2 hpow.le
    have hdown : (-1) * 3 ^ k ≤ (digit n k).toInt * 3 ^ k := mul_le_mul_of_nonneg_right hdigit.1 hpow.le
    rw [hsplit, pow_succ]
    constructor <;> linarith

/-- An integer that `k` trits can hold has nothing above them. -/
theorem dropTrits_eq_zero {k : Nat} {n : Int} (hlo : -(3 ^ k : Int) < 2 * n) (hhi : 2 * n < 3 ^ k) :
    dropTrits k n = 0 := by
  have hpow : (0 : Int) < 3 ^ k := by positivity
  obtain ⟨hup, hdown⟩ := dropTrits_nearest k n
  have hlt : dropTrits k n < 1 := by
    by_contra hge
    nlinarith [not_lt.1 hge]
  have hgt : -1 < dropTrits k n := by
    by_contra hle
    nlinarith [not_lt.1 hle]
  omega

/-- A Word's value has no trit at position 9 or above (R20). -/
theorem Word.dropTrits_val {k : Nat} (h : 9 ≤ k) (w : Word) : dropTrits k w.val = 0 := by
  have hb := w.val_bounds
  have hpow : (3 : Int) ^ 9 ≤ 3 ^ k := pow_le_pow_right₀ (by norm_num) h
  exact dropTrits_eq_zero (by omega) (by omega)

/-- The trits of a Word are the digits of its value, the empty positions above it included (R102, R104). -/
theorem Word.trit_eq_digit (w : Word) (i : Nat) : w.trit i = digit w.val i := by
  by_cases h : i ≤ 8
  · calc w.trit i = (Word.ofInt w.val).trit i := by rw [w.ofInt_val]
      _ = digit w.val i := Word.trit_ofTrits _ h
  · obtain ⟨j, rfl⟩ := Nat.exists_eq_add_of_le (show 9 ≤ i by omega)
    rw [digit, w.dropTrits_val (Nat.le_add_right 9 j), Nat.add_comm]
    rfl

end Sys2Proof
end

section
/-! The adder (40_numeral_alu.md R106, R107): value and carry make up the exact sum, which fixes both. -/

namespace Sys2Proof

/-- Value and carry of the adder together are the exact sum: the column identities, weighted by position, add up
(R107). -/
theorem Word.add_exact (v w : Word) : v.val + w.val = (v.add w).1.val + 19683 * (v.add w).2.toInt := by
  unfold Word.add
  extract_lets p0 p1 p2 p3 p4 p5 p6 p7 p8
  have e0 : v.t0.toInt + w.t0.toInt + 0 = p0.1.toInt + 3 * p0.2.toInt := addTrit_column _ _ .O
  have e1 : v.t1.toInt + w.t1.toInt + p0.2.toInt = p1.1.toInt + 3 * p1.2.toInt := addTrit_column _ _ _
  have e2 : v.t2.toInt + w.t2.toInt + p1.2.toInt = p2.1.toInt + 3 * p2.2.toInt := addTrit_column _ _ _
  have e3 : v.t3.toInt + w.t3.toInt + p2.2.toInt = p3.1.toInt + 3 * p3.2.toInt := addTrit_column _ _ _
  have e4 : v.t4.toInt + w.t4.toInt + p3.2.toInt = p4.1.toInt + 3 * p4.2.toInt := addTrit_column _ _ _
  have e5 : v.t5.toInt + w.t5.toInt + p4.2.toInt = p5.1.toInt + 3 * p5.2.toInt := addTrit_column _ _ _
  have e6 : v.t6.toInt + w.t6.toInt + p5.2.toInt = p6.1.toInt + 3 * p6.2.toInt := addTrit_column _ _ _
  have e7 : v.t7.toInt + w.t7.toInt + p6.2.toInt = p7.1.toInt + 3 * p7.2.toInt := addTrit_column _ _ _
  have e8 : v.t8.toInt + w.t8.toInt + p7.2.toInt = p8.1.toInt + 3 * p8.2.toInt := addTrit_column _ _ _
  unfold Word.val
  dsimp only
  omega

/-- A Word and a carry are fixed by the sum they make up. -/
theorem Word.eq_of_sum_eq {x y : Word × Trit}
    (h : x.1.val + 19683 * x.2.toInt = y.1.val + 19683 * y.2.toInt) : x = y := by
  have hx := x.1.val_bounds
  have hy := y.1.val_bounds
  exact Prod.ext (Word.val_injective (by omega)) (Trit.toInt_injective (by omega))

/-- The order of the operands does not matter. -/
theorem Word.add_comm (v w : Word) : v.add w = w.add v := by
  have hvw := v.add_exact w
  have hwv := w.add_exact v
  exact Word.eq_of_sum_eq (by omega)

/-- Word 0 is the identity of the adder. -/
@[simp] theorem Word.add_zero (v : Word) : v.add Word.zero = (v, .O) :=
  Word.eq_of_sum_eq (v.add_exact Word.zero).symm

/-- The Word of the adder is the sum brought into range (R105, R108). -/
theorem Word.val_add (v w : Word) : (v.add w).1.val = bmod (v.val + w.val) 19683 := by
  have hsum := v.add_exact w
  have hval := (v.add w).1.val_bounds
  unfold bmod
  omega

theorem Trit.toInt_eq_zero_iff (t : Trit) : t.toInt = 0 ↔ t = .O :=
  ⟨fun h => Trit.toInt_injective (b := .O) h, fun h => by rw [h]; rfl⟩

/-- The carry is `O` exactly where the sum is in range (R108). -/
theorem Word.carry_eq_O_iff (v w : Word) :
    (v.add w).2 = .O ↔ -9841 ≤ v.val + w.val ∧ v.val + w.val ≤ 9841 := by
  have hsum := v.add_exact w
  have hval := (v.add w).1.val_bounds
  rw [← Trit.toInt_eq_zero_iff]
  omega

/-- Settles O7: it holds. The exact sum fixes Word and carry, and every other clause is arithmetic on it. -/
theorem adderIsExactWithItsCarry : Obligations.AdderIsExactWithItsCarry :=
  fun v w => ⟨v.add_exact w, v.val_add w, v.carry_eq_O_iff w, v.add_comm w, v.add_zero⟩

end Sys2Proof
end

section
/-! Comparison and sign (40_numeral_alu.md R110 to R112): the scan of the trits from the top is the comparison of
the values, since Words that agree above a position are ordered by the trits there. -/

namespace Sys2Proof

/-- The scan of the lowest `k` trits compares the values of Words that agree above them (R111, R112). -/
theorem Word.compare_eq_compareTrits {v w : Word} {k : Nat} (h : dropTrits k v.val = dropTrits k w.val) :
    v.compare w = compareTrits v w k := by
  induction k with
  | zero =>
    have heq : v.val = w.val := h
    simp [compareTrits, Word.compare, heq]
  | succ k ih =>
    have hv := dropTrits_eq_digit_add k v.val
    have hw := dropTrits_eq_digit_add k w.val
    rw [compareTrits, v.trit_eq_digit, w.trit_eq_digit]
    by_cases hdigit : digit v.val k = digit w.val k
    · rw [if_pos hdigit]
      exact ih (by rw [hv, hw, hdigit, h])
    · rw [if_neg hdigit]
      have hne : (digit v.val k).toInt ≠ (digit w.val k).toInt := fun heq => hdigit (Trit.toInt_injective heq)
      by_cases hlt : (digit v.val k).toInt < (digit w.val k).toInt
      · have hval : v.val < w.val := lt_of_dropTrits_lt (k := k) (by omega)
        rw [if_pos hlt, Word.compare, if_pos hval]
      · have hval : w.val < v.val := lt_of_dropTrits_lt (k := k) (by omega)
        rw [if_neg hlt, Word.compare, if_neg (by omega), if_neg (by omega)]

/-- Settles O10: it holds; above position 8 any two Words agree. -/
theorem compareAgreesWithTritScan : Obligations.CompareAgreesWithTritScan := fun v w =>
  Word.compare_eq_compareTrits (by rw [v.dropTrits_val le_rfl, w.dropTrits_val le_rfl])

/-- The order of the value against 0, as the sign trit has it. -/
def signOrdering : Trit → Ordering
  | .N => .lt
  | .O => .eq
  | .P => .gt

/-- The sign of a Word is its comparison with Word 0 (R110). -/
theorem Word.signOrdering_sign (w : Word) : signOrdering w.sign = w.compare Word.zero := by
  have hzero : Word.zero.val = 0 := rfl
  unfold Word.sign Word.compare
  rw [hzero]
  split
  · rfl
  · split <;> rfl

/-- The leading trit decides the scan against Word 0 (R110, R112). -/
theorem signOrdering_leadingTrit (w : Word) (k : Nat) :
    signOrdering (leadingTrit w k) = compareTrits w Word.zero k := by
  induction k with
  | zero => rfl
  | succ k ih =>
    have hzero : Word.zero.trit k = .O := by
      rw [Word.trit_eq_digit]
      exact congrArg lowTrit (dropTrits_zero_right k)
    rw [leadingTrit, compareTrits, hzero]
    cases h : w.trit k with
    | O => simpa using ih
    | N | P => rfl

theorem signOrdering_injective {a b : Trit} (h : signOrdering a = signOrdering b) : a = b := by
  cases a <;> cases b <;> simp_all [signOrdering]

/-- Settles O9: it holds. Sign and leading trit both stand for the comparison with Word 0. -/
theorem signIsLeadingTrit : Obligations.SignIsLeadingTrit := by
  intro w
  have hsign := w.signOrdering_sign
  refine ⟨signOrdering_injective ?leading, ?N, ?O, ?P⟩
  case leading => rw [hsign, signOrdering_leadingTrit, compareAgreesWithTritScan]
  all_goals
    rw [← hsign]
    cases w.sign <;> simp [signOrdering]

end Sys2Proof
end

section
/-! The shift by its value (40_numeral_alu.md R113, R114): shifting up is multiplying by 3^k before the nine low
digits are taken, shifting down is dropping digits. -/

namespace Sys2Proof

/-- The digits of a number times 3^k are its digits `k` positions up. -/
theorem digit_mul_pow (n : Int) (k i : Nat) :
    digit (n * 3 ^ k) i = if k ≤ i then digit n (i - k) else .O := by
  induction k generalizing i with
  | zero => simp
  | succ k ih =>
    have htriple : n * 3 ^ (k + 1) = Trit.O.toInt + 3 * (n * 3 ^ k) := by
      rw [Trit.toInt, pow_succ]
      ring
    cases i with
    | zero => rw [htriple]; exact lowTrit_toInt_add _ _
    | succ i =>
      have hdigit : digit (n * 3 ^ (k + 1)) (i + 1) = digit (n * 3 ^ k) i := by
        rw [htriple]
        exact congrArg (fun m => lowTrit (dropTrits i m)) (dropTrit_toInt_add _ _)
      rw [hdigit, ih]
      simp

theorem Word.ofTrits_congr {f g : Nat → Trit} (h : ∀ i, i ≤ 8 → f i = g i) :
    Word.ofTrits f = Word.ofTrits g := by
  unfold Word.ofTrits
  simp [h]

/-- A Word's position above 8 is empty (R10). -/
theorem Word.trit_of_gt (w : Word) {i : Nat} (h : 8 < i) : w.trit i = .O := by
  rw [w.trit_eq_digit, digit, w.dropTrits_val h]
  rfl

/-- Shifting up by `k` is multiplying by 3^k (R114). -/
theorem Word.shift_eq_ofInt_mul (w : Word) (k : Nat) : w.shift (k : Int) = Word.ofInt (w.val * 3 ^ k) := by
  refine Word.ofTrits_congr fun i hi => ?_
  rw [digit_mul_pow, ← Word.trit_eq_digit]
  by_cases hk : k ≤ i
  · have hnat : ((i : Int) - k).toNat = i - k := by omega
    rw [if_pos hk, if_pos (by omega), hnat]
  · rw [if_neg hk, if_neg (by omega)]

/-- Shifting down by `k` is dropping the lowest `k` trits (R114). -/
theorem Word.shift_neg_eq_ofInt (w : Word) (k : Nat) :
    w.shift (-(k : Int)) = Word.ofInt (dropTrits k w.val) := by
  refine Word.ofTrits_congr fun i hi => ?_
  have hdigit : digit (dropTrits k w.val) i = w.trit (i + k) := by
    rw [w.trit_eq_digit, digit, digit, dropTrits_add]
  have hnat : ((i : Int) - -(k : Int)).toNat = i + k := by omega
  rw [hdigit, hnat]
  by_cases hk : i + k ≤ 8
  · rw [if_pos (by omega)]
  · rw [if_neg (by omega), w.trit_of_gt (by omega)]

/-- Dropping low trits does not make a numeral larger. -/
theorem dropTrits_bounds (k : Nat) {n b : Int} (h : -b ≤ n ∧ n ≤ b) : -b ≤ dropTrits k n ∧ dropTrits k n ≤ b := by
  induction k generalizing n with
  | zero => exact h
  | succ k ih => exact ih (by unfold dropTrit; omega)

/-- A shift by nine or more positions either way loses every trit (R114). -/
theorem Word.shift_of_far (w : Word) {k : Int} (h : 9 ≤ k ∨ k ≤ -9) : w.shift k = Word.zero := by
  have hO : ∀ i : Nat, i ≤ 8 →
      (if 0 ≤ (i : Int) - k ∧ (i : Int) - k ≤ 8 then w.trit ((i : Int) - k).toNat else .O) = Trit.O :=
    fun i hi => if_neg (by omega)
  exact Word.ofTrits_congr hO

/-- Settles O12: it holds. Up, the product's nine low digits; down, the dropped digits are less than half of 3^k. -/
theorem shiftMultipliesOrRoundsToNearest : Obligations.ShiftMultipliesOrRoundsToNearest := by
  refine fun w => ⟨fun k _ => ?up, fun k _ _ => ?down, fun _ => w.shift_of_far⟩
  case up => rw [w.shift_eq_ofInt_mul, Word.val_ofInt_bmod]; rfl
  case down =>
    rw [w.shift_neg_eq_ofInt, Word.val_ofInt (dropTrits_bounds k w.val_bounds)]
    exact dropTrits_nearest k w.val

/-- The pair of two Words comes back from its value (R115). -/
theorem unpair_pairVal (hi lo : Word) : unpair (pairVal hi lo) = (hi, lo) := by
  have hlo := lo.val_bounds
  have hlow : Word.ofInt (bmod (pairVal hi lo) Config.wordMod) = lo := by
    have hval : bmod (pairVal hi lo) Config.wordMod = lo.val := by
      unfold bmod pairVal Config.wordMod
      omega
    rw [hval, lo.ofInt_val]
  have hhigh : (pairVal hi lo - lo.val) / Config.wordMod = hi.val := by
    unfold pairVal Config.wordMod
    omega
  unfold unpair
  dsimp only
  rw [hlow, hhigh, hi.ofInt_val]

/-- The pair of an integer that 18 trits can hold has that value (R115). -/
theorem pairVal_unpair {n : Int} (h : -193710244 ≤ n ∧ n ≤ 193710244) :
    pairVal (unpair n).1 (unpair n).2 = n := by
  have hlow : (Word.ofInt (bmod n Config.wordMod)).val = bmod n Config.wordMod :=
    Word.val_ofInt (by unfold bmod Config.wordMod; omega)
  unfold unpair pairVal
  dsimp only
  rw [hlow, Word.val_ofInt (by unfold bmod Config.wordMod; omega)]
  unfold bmod Config.wordMod
  omega

/-- Settles O13: it holds, both ways round. -/
theorem unpairInvertsPairValue : Obligations.UnpairInvertsPairValue :=
  ⟨unpair_pairVal, fun _ hlo hhi => pairVal_unpair ⟨hlo, hhi⟩⟩

end Sys2Proof
end

section
/-! Memory in canonical form is fixed by what its cells read (log entry 3). -/

namespace Sys2Proof.Machine

/-- In a canonical list an address below its start, or one of no cell, is not listed. -/
theorem bounds_of_readCells_ne {l : List (Nat × Word)} {lo a : Nat} (hwf : cellsWf lo l = true)
    (h : readCells l a ≠ Memory.unlisted) : lo ≤ a ∧ a < 162 := by
  induction l generalizing lo with
  | nil => exact absurd rfl h
  | cons c l ih =>
    obtain ⟨hlo, hcell, -, hrest⟩ := (cellsWf_cons lo c.1 c.2 l).1 hwf
    by_cases hc : c.1 = a
    · exact ⟨hc ▸ hlo, hc ▸ hcell⟩
    · rw [readCells, if_neg hc] at h
      have hbounds := ih hrest h
      omega

/-- An address that a canonical list cannot hold reads as an unlisted one. -/
theorem readCells_of_out {l : List (Nat × Word)} {lo a : Nat} (hwf : cellsWf lo l = true)
    (h : a < lo ∨ 162 ≤ a) : readCells l a = Memory.unlisted := by
  by_contra hne
  have hbounds := bounds_of_readCells_ne hwf hne
  omega

/-- The first cell of a list reads as its Word. -/
@[simp] theorem readCells_cons_same (a : Nat) (w : Word) (l : List (Nat × Word)) :
    readCells ((a, w) :: l) a = w := if_pos rfl

/-- Canonical lists that read alike at every address are equal: the first address of either is listed in the other,
so the two are the same, and the tails read alike. -/
theorem cells_ext {l l' : List (Nat × Word)} {lo : Nat} (hwf : cellsWf lo l = true)
    (hwf' : cellsWf lo l' = true) (h : ∀ a, readCells l a = readCells l' a) : l = l' := by
  induction l generalizing lo l' with
  | nil =>
    cases l' with
    | nil => rfl
    | cons c' l' =>
      obtain ⟨-, -, hw', -⟩ := (cellsWf_cons lo c'.1 c'.2 l').1 hwf'
      exact absurd ((h c'.1).trans (readCells_cons_same c'.1 c'.2 l')).symm hw'
  | cons c l ih =>
    obtain ⟨a, w⟩ := c
    obtain ⟨-, ha, hw, hrest⟩ := (cellsWf_cons lo a w l).1 hwf
    have hread : readCells l' a = w := (h a).symm.trans (readCells_cons_same a w l)
    cases l' with
    | nil => exact absurd hread.symm hw
    | cons c' l' =>
      obtain ⟨a', w'⟩ := c'
      obtain ⟨-, ha', hw', hrest'⟩ := (cellsWf_cons lo a' w' l').1 hwf'
      have hread' : readCells ((a, w) :: l) a' = w' := (h a').trans (readCells_cons_same a' w' l')
      have hstart := (cellsWf_cons a a w l).2 ⟨le_rfl, ha, hw, hrest⟩
      have hstart' := (cellsWf_cons a' a' w' l').2 ⟨le_rfl, ha', hw', hrest'⟩
      obtain rfl : a = a' := le_antisymm (bounds_of_readCells_ne hstart (hread'.symm ▸ hw')).1
        (bounds_of_readCells_ne hstart' (hread.symm ▸ hw)).1
      obtain rfl : w = w' := (readCells_cons_same a w l).symm.trans hread'
      have htail : ∀ b, readCells l b = readCells l' b := by
        intro b
        by_cases hb : a = b
        · rw [readCells_of_out hrest (by omega), readCells_of_out hrest' (by omega)]
        · simpa [readCells, hb] using h b
      rw [ih hrest hrest' htail]

/-- Settles O14: it holds; beyond address 161 neither memory lists anything. -/
theorem equalReadsMeanEqualMemory : Obligations.EqualReadsMeanEqualMemory := by
  intro m n hm hn h
  have hcells : m.cells = n.cells := by
    refine cells_ext hm hn fun a => ?_
    by_cases ha : a < 162
    · exact h a ha
    · rw [readCells_of_out hm (by omega), readCells_of_out hn (by omega)]
  exact congrArg Memory.mk hcells

end Sys2Proof.Machine
end

section
/-! The data transfers of `R` and `F`, the indexed ones and XSR (42_data_transfer.md R164 to R171). -/

namespace Sys2Proof.Machine

/-- Class X with the effective address in 0 to 161 runs the body there (R171). -/
theorem indexed_of_mem {opnd : Int} {s : State} (h : 0 ≤ opnd + s.F.val ∧ opnd + s.F.val ≤ 161)
    (body : Nat → Result) : indexed opnd s body = body (opnd + s.F.val).toNat :=
  indexed_valid ((validAddress_iff (effectiveAddress opnd s)).2 h) body

/-- Class X with any other effective address is AddressFault, whatever `opnd` alone is (R171). -/
theorem indexed_of_not_mem {opnd : Int} {s : State} (h : opnd + s.F.val < 0 ∨ 161 < opnd + s.F.val)
    (body : Nat → Result) : indexed opnd s body = .fault .addressFault :=
  indexed_invalid ((validAddress_false_iff (effectiveAddress opnd s)).2 h) body

/-- Settles O42: it holds; `setR` and `setF` write their register only, and the class A check gives the faults. -/
theorem ldrAndLdfLoadTheirRegister : Obligations.LdrAndLdfLoadTheirRegister := by
  refine fun opnd s => ⟨fun hopnd => ⟨decode_ofInt (i := .ldr opnd) hopnd, decode_ofInt (i := .ldf opnd) hopnd⟩,
    fun hin => ?loads, fun hout => ?faults⟩
  case loads =>
    rw [exec_ldr, exec_ldf, direct_of_mem hin, direct_of_mem hin]
    exact ⟨rfl, rfl⟩
  case faults =>
    rw [exec_ldr, exec_ldf, direct_of_not_mem hout, direct_of_not_mem hout]
    exact ⟨rfl, rfl⟩

/-- Settles O43: it holds; the memory clauses are the read-after-write law at cell `opnd`. -/
theorem strAndStfStoreTheirRegister : Obligations.StrAndStfStoreTheirRegister := by
  refine fun opnd s => ⟨fun hopnd => ⟨decode_ofInt (i := .str opnd) hopnd, decode_ofInt (i := .stf opnd) hopnd⟩,
    fun hin => ?stores, fun hout => ?faults⟩
  case stores =>
    rw [exec_str, exec_stf, direct_of_mem hin, direct_of_mem hin]
    exact ⟨⟨_, rfl, rfl, s.mem.read_write opnd.toNat s.R⟩, _, rfl, rfl, s.mem.read_write opnd.toNat s.F⟩
  case faults =>
    rw [exec_str, exec_stf, direct_of_not_mem hout, direct_of_not_mem hout]
    exact ⟨rfl, rfl⟩

/-- Settles O44: it holds, the class X check being on the unbounded sum. -/
theorem ldxAndStxUseTheIndexedCell : Obligations.LdxAndStxUseTheIndexedCell := by
  refine fun opnd s => ⟨fun hopnd => ⟨decode_ofInt (i := .ldx opnd) hopnd, decode_ofInt (i := .stx opnd) hopnd⟩,
    fun hin => ?transfers, fun hout => ?faults⟩
  case transfers =>
    rw [exec_ldx, exec_stx, indexed_of_mem hin, indexed_of_mem hin]
    exact ⟨rfl, _, rfl, rfl, s.mem.read_write (opnd + s.F.val).toNat s.S⟩
  case faults =>
    rw [exec_ldx, exec_stx, indexed_of_not_mem hout, indexed_of_not_mem hout]
    exact ⟨rfl, rfl⟩

/-- Settles O45: it holds. The second exchange writes the latch with the sign of the first `S`, which it was. -/
theorem xsrSwapsAccumulatorAndExtension : Obligations.XsrSwapsAccumulatorAndExtension := by
  refine fun opnd s => ⟨decode_ofInt (i := .xsr opnd), exec_xsr opnd s, fun t u hfirst hsecond hlatch => ?twice⟩
  case twice =>
    obtain rfl := exec_next_eq hfirst
    have hu : u = { s with omega := s.S.sign, C := u.C } := by
      rw [exec_next_eq hsecond]
      rfl
    rw [← hlatch] at hu
    exact hu

end Sys2Proof.Machine
end

section
/-! The arithmetic instructions (43_arithmetic.md R180 to R185). -/

namespace Sys2Proof

/-- The sign of a Word is `N` exactly where its value is negative (R110). -/
theorem Word.sign_eq_N_iff (w : Word) : w.sign = .N ↔ w.val < 0 := by
  unfold Word.sign
  split
  case isTrue hneg => simp [hneg]
  case isFalse hnonneg => split <;> simp [hnonneg]

/-- The sign of a Word is `P` exactly where its value is positive (R110). -/
theorem Word.sign_eq_P_iff (w : Word) : w.sign = .P ↔ 0 < w.val := by
  unfold Word.sign
  split
  case isTrue hneg => simp [hneg.le]
  case isFalse hnonneg =>
    split
    case isTrue hzero => simp [hzero]
    case isFalse hne => simpa using lt_of_le_of_ne (not_lt.1 hnonneg) (Ne.symm hne)

/-- Negation turns the sign over (R109, R110). -/
theorem Word.sign_negate (w : Word) : w.negate.sign = w.sign.neg := by
  cases h : w.sign with
  | N =>
    rw [Word.sign_eq_N_iff] at h
    exact w.negate.sign_eq_P_iff.2 (by rw [w.val_negate]; omega)
  | O =>
    rw [Word.sign_eq_O_iff] at h
    exact w.negate.sign_eq_O_iff.2 (by rw [w.val_negate]; omega)
  | P =>
    rw [Word.sign_eq_P_iff] at h
    exact w.negate.sign_eq_N_iff.2 (by rw [w.val_negate]; omega)

/-- The product of two Words fits 18 trits (R116). -/
theorem Word.mul_bounds (v w : Word) : -193710244 ≤ v.val * w.val ∧ v.val * w.val ≤ 193710244 := by
  have hv := abs_le.2 v.val_bounds
  have hw := abs_le.2 w.val_bounds
  have habs : |v.val * w.val| ≤ 193710244 :=
    calc |v.val * w.val| = |v.val| * |w.val| := abs_mul _ _
      _ ≤ 9841 * 9841 := mul_le_mul hv hw (abs_nonneg _) (by norm_num)
      _ ≤ 193710244 := by norm_num
  exact abs_le.1 habs

/-- The pair of `mulwide` has the exact product as its value (R116). -/
theorem pairVal_mulwide (v w : Word) : pairVal (mulwide v w).1 (mulwide v w).2 = v.val * w.val :=
  pairVal_unpair (v.mul_bounds w)

/-- `divtrunc` is division rounded toward zero with its remainder (R117). -/
theorem divtrunc_eq (a b : Int) : divtrunc a b = (a.tdiv b, a.tmod b) := by
  have hquot : a.sign * b.sign * ((a.natAbs / b.natAbs : Nat) : Int) = a.tdiv b := by
    rw [← Int.sign_mul_natAbs (a.tdiv b), Int.natAbs_tdiv, Int.sign_tdiv]
    split
    case isTrue hlt => simp [Nat.div_eq_of_lt hlt]
    case isFalse => rfl
  unfold divtrunc
  dsimp only
  rw [hquot, Int.tmod_def, mul_comm b]

/-- Quotient and remainder by a nonzero Word are values of Words. -/
theorem Word.divtrunc_bounds (v : Word) {w : Word} (h : w.val ≠ 0) :
    (-9841 ≤ v.val.tdiv w.val ∧ v.val.tdiv w.val ≤ 9841) ∧
      (-9841 ≤ v.val.tmod w.val ∧ v.val.tmod w.val ≤ 9841) := by
  have hv := v.val_bounds
  have hw := w.val_bounds
  have hquot : (v.val.tdiv w.val).natAbs ≤ v.val.natAbs := by
    rw [Int.natAbs_tdiv]
    exact Nat.div_le_self _ _
  have hrem : (v.val.tmod w.val).natAbs < w.val.natAbs := by
    rw [Int.natAbs_tmod]
    exact Nat.mod_lt _ (Int.natAbs_pos.2 h)
  omega

/-- DIV's quotient is a Word's value, so the Word stored has it exactly (R117, R184). -/
theorem Word.val_quotient (v : Word) {w : Word} (h : w.val ≠ 0) :
    (Word.ofInt (divtrunc v.val w.val).1).val = v.val.tdiv w.val := by
  rw [divtrunc_eq]
  exact Word.val_ofInt (v.divtrunc_bounds h).1

/-- DIV's remainder is a Word's value, so the Word stored has it exactly (R117, R184). -/
theorem Word.val_remainder (v : Word) {w : Word} (h : w.val ≠ 0) :
    (Word.ofInt (divtrunc v.val w.val).2).val = v.val.tmod w.val := by
  rw [divtrunc_eq]
  exact Word.val_ofInt (v.divtrunc_bounds h).2

end Sys2Proof

namespace Sys2Proof.Machine

/-- `V` after a use of the adder: set before, or by a carry (R27). -/
theorem stickyOverflow_eq_true_iff (v : Bool) (c : Trit) : stickyOverflow v c = true ↔ v = true ∨ c ≠ .O := by
  rw [stickyOverflow, Bool.or_eq_true, decide_eq_true_eq]

/-- The adder notes an overflow exactly where the true sum is out of range (R108, R180). -/
theorem stickyOverflow_add_iff (b : Bool) (v w : Word) :
    stickyOverflow b (v.add w).2 = true ↔ b = true ∨ v.val + w.val < -9841 ∨ 9841 < v.val + w.val := by
  rw [stickyOverflow_eq_true_iff, ne_eq, Word.carry_eq_O_iff]
  exact or_congr_right (by omega)

/-- Settles O46: it holds, each clause one law of the adder. -/
theorem addAccumulatesAndNotesOverflow : Obligations.AddAccumulatesAndNotesOverflow := by
  refine fun opnd s => ⟨decode_ofInt (i := .add opnd), fun hin => ?adds, fun hout => ?faults⟩
  case adds =>
    refine ⟨(accumulate (s.load opnd.toNat) s).advance, ?next, rfl, rfl, Word.val_add _ _,
      stickyOverflow_eq_true_iff _ _, stickyOverflow_add_iff _ _ _⟩
    rw [exec_add, direct_of_mem hin]
  case faults => rw [exec_add, direct_of_not_mem hout]

/-- In range the wrapped difference is the true one, so its sign compares the two Words (R182). -/
theorem sign_of_val_eq_sub {d v w : Word} (h : d.val = v.val - w.val) :
    (d.sign = .P ↔ w.val < v.val) ∧ (d.sign = .O ↔ v = w) ∧ (d.sign = .N ↔ v.val < w.val) := by
  have heq : v = w ↔ v.val = w.val := ⟨congrArg Word.val, Word.val_injective⟩
  rw [Word.sign_eq_P_iff, Word.sign_eq_O_iff, Word.sign_eq_N_iff, heq]
  omega

/-- Adding the negated Word subtracts, wrapped into range (R182). -/
theorem val_add_negate (v w : Word) : (v.add w.negate).1.val = bmod (v.val - w.val) 19683 := by
  rw [Word.val_add, Word.val_negate, sub_eq_add_neg]

/-- The subtraction notes an overflow exactly where the true difference is out of range (R180, R182). -/
theorem stickyOverflow_add_negate_iff (b : Bool) (v w : Word) :
    stickyOverflow b (v.add w.negate).2 = true ↔ b = true ∨ v.val - w.val < -9841 ∨ 9841 < v.val - w.val := by
  rw [stickyOverflow_add_iff, Word.val_negate, sub_eq_add_neg]

/-- Where no overflow is noted the difference was in range and is not wrapped (R182). -/
theorem val_add_negate_of_no_overflow {b : Bool} {v w : Word}
    (h : stickyOverflow b (v.add w.negate).2 = false) : (v.add w.negate).1.val = v.val - w.val := by
  have hrange := mt (stickyOverflow_add_negate_iff b v w).2 (Bool.eq_false_iff.1 h)
  rw [val_add_negate]
  unfold bmod
  omega

/-- Settles O47: it holds; with `V` clear after, the sign of the difference is the comparison. -/
theorem subSubtractsAndCompares : Obligations.SubSubtractsAndCompares := by
  refine fun opnd s => ⟨decode_ofInt (i := .sub opnd), fun hin => ?subtracts, fun hout => ?faults⟩
  case subtracts =>
    refine ⟨(accumulate (s.load opnd.toNat).negate s).advance, ?next, rfl, val_add_negate _ _,
      stickyOverflow_add_negate_iff _ _ _, fun hclear => sign_of_val_eq_sub (val_add_negate_of_no_overflow hclear)⟩
    rw [exec_sub, direct_of_mem hin]
  case faults => rw [exec_sub, direct_of_not_mem hout]

/-- Settles O48: it holds; `R:S` is `mulwide`'s pair. -/
theorem mulGivesTheExactProductInThePair : Obligations.MulGivesTheExactProductInThePair := by
  refine fun opnd s => ⟨decode_ofInt (i := .mul opnd), fun hin => ?multiplies, fun hout => ?faults⟩
  case multiplies =>
    refine ⟨((s.setR (mulwide s.S (s.load opnd.toNat)).1).setS (mulwide s.S (s.load opnd.toNat)).2).advance, ?next,
      rfl, pairVal_mulwide _ _⟩
    rw [exec_mul, direct_of_mem hin]
  case faults => rw [exec_mul, direct_of_not_mem hout]

/-- Settles O49: it holds. `divtrunc` is the division toward zero of the library, whose laws are the clauses. -/
theorem divTruncatesAndFaultsOnZero : Obligations.DivTruncatesAndFaultsOnZero := by
  refine fun opnd s => ⟨decode_ofInt (i := .div opnd), fun hin hne => ?divides, fun hin hzero => ?byZero,
    fun hout => ?faults⟩
  case divides =>
    have hnext : exec (.div opnd) s = .next (completed (.div opnd) s) := by
      rw [exec_div, direct_of_mem hin]
      exact if_neg hne
    have hS : (completed (.div opnd) s).S.val = s.S.val.tdiv (s.mem.read opnd.toNat).val := s.S.val_quotient hne
    have hR : (completed (.div opnd) s).R.val = s.S.val.tmod (s.mem.read opnd.toNat).val := s.S.val_remainder hne
    refine ⟨completed (.div opnd) s, hnext, rfl, ?sum, ?smaller, ?sign⟩
    case sum => rw [hS, hR, Int.tdiv_mul_add_tmod]
    case smaller =>
      rw [hR, Int.natAbs_tmod]
      exact Nat.mod_lt _ (Int.natAbs_pos.2 hne)
    case sign =>
      rw [hR, Int.sign_tmod]
      split
      case isTrue hdvd => exact .inl (Int.tmod_eq_zero_of_dvd hdvd)
      case isFalse => exact .inr rfl
  case byZero =>
    rw [exec_div, direct_of_mem hin]
    exact if_pos hzero
  case faults => rw [exec_div, direct_of_not_mem hout]

/-- Settles O50: it holds, by the value and the sign of a negated Word. -/
theorem negNegatesTheAccumulator : Obligations.NegNegatesTheAccumulator := fun opnd s =>
  ⟨decode_ofInt (i := .neg opnd), (s.setS s.S.negate).advance, exec_neg opnd s, rfl, s.S.val_negate,
    s.S.sign_negate⟩

end Sys2Proof.Machine
end

section
/-! JP, JN and LOOP (44_control_flow.md R203 to R205). -/

namespace Sys2Proof.Machine

/-- Settles O53: it holds, as for JZ: the target check comes before the latch is read. -/
theorem jpAndJnJumpOnSign : Obligations.JpAndJnJumpOnSign := by
  refine fun opnd s => ⟨fun hopnd => ⟨decode_ofInt (i := .jp opnd) hopnd, decode_ofInt (i := .jn opnd) hopnd⟩,
    fun hin => ?jumps, fun hout => ?faults, fun hlatch => ?latch⟩
  case jumps =>
    rw [exec_jp, exec_jn, target_of_mem hin, target_of_mem hin]
    refine ⟨fun hP => ?_, fun hP => ?_, fun hN => ?_, fun hN => ?_, val_ofInt_target hin⟩
    · rw [jumpIf_of_holds hP]; rfl
    · rw [jumpIf_of_fails hP]; rfl
    · rw [jumpIf_of_holds hN]; rfl
    · rw [jumpIf_of_fails hN]; rfl
  case faults =>
    rw [exec_jp, exec_jn, target_of_not_mem hout, target_of_not_mem hout]
    exact ⟨rfl, rfl⟩
  case latch =>
    rw [hlatch]
    exact ⟨s.S.sign_eq_P_iff, s.S.sign_eq_N_iff⟩

/-- The value of −1 as a Word, which LOOP adds (R205). -/
theorem val_ofInt_neg_one : (Word.ofInt (-1)).val = -1 := rfl

/-- LOOP's decrement wraps from −9841 to 9841 (R205). -/
theorem decremented_val (s : State) :
    (decremented s).1.val = if s.F.val = -9841 then 9841 else s.F.val - 1 := by
  have hF := s.F.val_bounds
  rw [decremented, Word.val_add, val_ofInt_neg_one]
  unfold bmod
  omega

/-- LOOP notes an overflow exactly where the decrement wraps (R205). -/
theorem stickyOverflow_decremented_iff (s : State) :
    stickyOverflow s.V (decremented s).2 = true ↔ s.V = true ∨ s.F.val = -9841 := by
  have hF := s.F.val_bounds
  rw [decremented, stickyOverflow_add_iff, val_ofInt_neg_one]
  exact or_congr_right (by omega)

/-- A conditional jump writes `C` only (R200). -/
theorem jumpIf_frame (b : Bool) (t : Int) (s : State) : jumpIf b t s = { s with C := (jumpIf b t s).C } := by
  cases b <;> rfl

/-- Settles O54: it holds; the new `F` is zero exactly where the old one was 1. -/
theorem loopDecrementsAndJumpsWhileNotZero : Obligations.LoopDecrementsAndJumpsWhileNotZero := by
  refine fun opnd s => ⟨decode_ofInt (i := .loop opnd), fun hin => ?loops, fun hout => ?faults⟩
  case loops =>
    have hzero : (decremented s).1.val ≠ 0 ↔ s.F.val ≠ 1 := by
      rw [decremented_val]
      omega
    have hnext : exec (.loop opnd) s = .next (completed (.loop opnd) s) := by
      rw [exec_loop, target_of_mem hin]
      rfl
    refine ⟨completed (.loop opnd) s, hnext, ?frame, ?F, ?V, fun hne => ?taken, fun hone => ?fallsThrough⟩
    case frame =>
      simp only [completed, jumpIf_F, jumpIf_V]
      exact jumpIf_frame _ _ _
    case F => simp [completed, decremented_val]
    case V => simp [completed, stickyOverflow_decremented_iff]
    case taken =>
      rw [completed, jumpIf_of_holds (hzero.2 hne), State.jumpTo_C]
      exact val_ofInt_target hin
    case fallsThrough =>
      rw [completed, jumpIf_of_fails (fun h => hzero.1 h hone)]
      simp
  case faults => rw [exec_loop, target_of_not_mem hout]

end Sys2Proof.Machine
end

section
/-! The shift instructions (45_shift.md R221, R222). -/

namespace Sys2Proof

/-- Position `i` of a shifted pair (R115, R222). -/
theorem pairTrit_shift18 (hi lo : Word) (k : Int) {i : Nat} (h : i ≤ 17) :
    pairTrit (shift18 hi lo k).1 (shift18 hi lo k).2 i =
      if 0 ≤ (i : Int) - k ∧ (i : Int) - k ≤ 17 then pairTrit hi lo ((i : Int) - k).toNat else .O := by
  by_cases hlow : i < 9
  · rw [pairTrit, if_pos hlow, shift18]
    exact Word.trit_ofTrits _ (by omega)
  · obtain ⟨j, rfl⟩ := Nat.exists_eq_add_of_le (show 9 ≤ i by omega)
    rw [pairTrit, if_neg hlow, shift18, Nat.add_sub_cancel_left, Nat.add_comm 9 j]
    exact Word.trit_ofTrits _ (by omega)

end Sys2Proof

namespace Sys2Proof.Machine

/-- Settles O55: it holds, by the trits of a shifted Word. -/
theorem shaShiftsTheAccumulator : Obligations.ShaShiftsTheAccumulator := fun opnd s =>
  ⟨decode_ofInt (i := .sha opnd), (s.setS (s.S.shift opnd)).advance, exec_sha opnd s, rfl,
    fun _ => s.S.trit_shift opnd⟩

/-- Settles O56: it holds, by the trits of a shifted pair. -/
theorem shdShiftsThePair : Obligations.ShdShiftsThePair := fun opnd s =>
  ⟨decode_ofInt (i := .shd opnd), ((s.setR (shift18 s.R s.S opnd).1).setS (shift18 s.R s.S opnd).2).advance,
    exec_shd opnd s, rfl, fun _ => pairTrit_shift18 s.R s.S opnd⟩

end Sys2Proof.Machine
end

section
/-! Bounded runs and their traces (41_execution_cycle.md sections 3 and 5): the ways a run can go, said once, and
each fact about runs and traces by induction on them. -/

namespace Sys2Proof.Machine

/-- The record of a completed step from `s` to `u` (R142). -/
def recordOf (s u : State) : TraceRecord :=
  { pre := s, instr := decode (s.mem.read s.C.val.toNat), post := u }

/-- A completed step of a running engine leaves its one record. -/
theorem stepTrace_of_next {s u : State} (hr : s.RUN = true) (h : step s = .next u) :
    stepTrace s = [recordOf s u] :=
  stepTrace_next hr (step_next_checked hr h).1 h

/-- A faulted step leaves no record (R142). -/
theorem stepTrace_of_fault {s : State} {k : Fault} (h : step s = .fault k) : stepTrace s = [] :=
  stepTrace_eq_nil fun _ hnext => by simp [h] at hnext

/-- A completed step after which the engine still runs answers `Continue` (R138). -/
theorem engineStep_continues {s u : State} (hr : s.RUN = true) (h : step s = .next u) (hu : u.RUN = true) :
    engineStep s = (.continuing, u) := by
  rw [engineStep_next hr h, hu]
  rfl

/-- A completed step after which the engine is halted answers `Halted` (R138). -/
theorem engineStep_halts {s u : State} (hr : s.RUN = true) (h : step s = .next u) (hu : u.RUN = false) :
    engineStep s = (.halted, u) := by
  rw [engineStep_next hr h, hu]
  rfl

/-- The three ways a step can go (R138). -/
theorem step_cases (s : State) :
    (∃ u, step s = .next u ∧ u.RUN = true) ∨ (∃ u, step s = .next u ∧ u.RUN = false) ∨
      ∃ k, step s = .fault k := by
  cases h : step s with
  | next u =>
    cases hu : u.RUN with
    | true => exact .inl ⟨u, rfl, hu⟩
    | false => exact .inr (.inl ⟨u, rfl, hu⟩)
  | fault k => exact .inr (.inr ⟨k, rfl⟩)
  | refused r => exact absurd h (step_ne_refused s r)

/-- A running engine without budget (R140). -/
theorem run_zero {s : State} (hr : s.RUN = true) : run 0 s = (.budgetExceeded, s) := by
  unfold run
  rw [hr]

/-- A run goes on after a step that continues (R140). -/
theorem run_of_continuing {s u : State} (hr : s.RUN = true) (h : engineStep s = (.continuing, u)) (n : Nat) :
    run (n + 1) s = run n u := by
  rw [run, hr]
  simp [h]

/-- A run ends with the step that halts (R140). -/
theorem run_of_halted {s u : State} (hr : s.RUN = true) (h : engineStep s = (.halted, u)) (n : Nat) :
    run (n + 1) s = (.halted, u) := by
  rw [run, hr]
  simp [h]

/-- A run ends with the step that faults (R140). -/
theorem run_of_fault {s u : State} {k : Fault} (hr : s.RUN = true) (h : engineStep s = (.fault k, u)) (n : Nat) :
    run (n + 1) s = (.fault k, u) := by
  rw [run, hr]
  simp [h]

/-- The trace of a run goes on after a step that continues (R142). -/
theorem runTrace_of_continuing {s u : State} (h : engineStep s = (.continuing, u)) (n : Nat) :
    runTrace (n + 1) s = stepTrace s ++ runTrace n u := by
  rw [runTrace]
  simp [h]

/-- The step that halts leaves the last records of the run (R142). -/
theorem runTrace_of_halted {s u : State} (h : engineStep s = (.halted, u)) (n : Nat) :
    runTrace (n + 1) s = stepTrace s := by
  rw [runTrace]
  simp [h]

/-- The step that faults ends the trace of the run (R142). -/
theorem runTrace_of_fault {s u : State} {k : Fault} (h : engineStep s = (.fault k, u)) (n : Nat) :
    runTrace (n + 1) s = stepTrace s := by
  rw [runTrace]
  simp [h]

/-- How a run from `s` with budget `n` goes: the status it ends with, the state it ends in and the records it
leaves. `run_goes` and `run_of_goes` tie it to `run` and `runTrace`. -/
inductive RunGoes : Nat → State → RunStatus → State → List TraceRecord → Prop where
  /-- The engine was halted. -/
  | atRest {n : Nat} {s : State} : s.RUN = false → RunGoes n s .halted s []
  /-- No budget is left. -/
  | exhausted {s : State} : s.RUN = true → RunGoes 0 s .budgetExceeded s []
  /-- The step halts. -/
  | halts {n : Nat} {s u : State} : s.RUN = true → step s = .next u → u.RUN = false →
      RunGoes (n + 1) s .halted u [recordOf s u]
  /-- The step faults. -/
  | faults {n : Nat} {s : State} {k : Fault} : s.RUN = true → step s = .fault k →
      RunGoes (n + 1) s (.fault k) s []
  /-- The step continues, and the rest of the run goes on from its state. -/
  | continues {n : Nat} {s u v : State} {st : RunStatus} {rs : List TraceRecord} : s.RUN = true →
      step s = .next u → u.RUN = true → RunGoes n u st v rs → RunGoes (n + 1) s st v (recordOf s u :: rs)

/-- Every bounded run goes one of these ways. -/
theorem run_goes (n : Nat) (s : State) : RunGoes n s (run n s).1 (run n s).2 (runTrace n s) := by
  cases hr : s.RUN with
  | false =>
    rw [run_halted hr, runTrace_halted hr]
    exact .atRest hr
  | true =>
    cases n with
    | zero =>
      rw [run_zero hr]
      exact .exhausted hr
    | succ n =>
      obtain ⟨u, hstep, hu⟩ | ⟨u, hstep, hu⟩ | ⟨k, hstep⟩ := step_cases s
      · have hstatus := engineStep_continues hr hstep hu
        rw [run_of_continuing hr hstatus, runTrace_of_continuing hstatus, stepTrace_of_next hr hstep]
        exact .continues hr hstep hu (run_goes n u)
      · have hstatus := engineStep_halts hr hstep hu
        rw [run_of_halted hr hstatus, runTrace_of_halted hstatus, stepTrace_of_next hr hstep]
        exact .halts hr hstep hu
      · have hstatus := engineStep_fault hr hstep
        rw [run_of_fault hr hstatus, runTrace_of_fault hstatus, stepTrace_of_fault hstep]
        exact .faults hr hstep

/-- The way a run goes is its result. -/
theorem run_of_goes {n : Nat} {s u : State} {st : RunStatus} {rs : List TraceRecord} (h : RunGoes n s st u rs) :
    run n s = (st, u) ∧ runTrace n s = rs := by
  induction h with
  | atRest hr => exact ⟨run_halted hr _, runTrace_halted hr _⟩
  | exhausted hr => exact ⟨run_zero hr, rfl⟩
  | halts hr hstep hu =>
    have hstatus := engineStep_halts hr hstep hu
    exact ⟨run_of_halted hr hstatus _, by rw [runTrace_of_halted hstatus, stepTrace_of_next hr hstep]⟩
  | faults hr hstep =>
    have hstatus := engineStep_fault hr hstep
    exact ⟨run_of_fault hr hstatus _, by rw [runTrace_of_fault hstatus, stepTrace_of_fault hstep]⟩
  | continues hr hstep hu _ ih =>
    have hstatus := engineStep_continues hr hstep hu
    obtain ⟨hrun, htrace⟩ := ih
    rw [run_of_continuing hr hstatus, runTrace_of_continuing hstatus, stepTrace_of_next hr hstep, hrun, htrace]
    exact ⟨rfl, rfl⟩

section
variable {n : Nat} {s u : State} {k : Fault} {rs : List TraceRecord}

/-- A run that answers `Halted` leaves `RUN` clear (R140). -/
theorem RunGoes.halted_RUN (h : RunGoes n s .halted u rs) : u.RUN = false := by
  generalize hst : RunStatus.halted = st at h
  induction h with
  | atRest hr => exact hr
  | halts _ _ hu => exact hu
  | exhausted | faults => cases hst
  | continues _ _ _ _ ih => exact ih hst

/-- A run that answers a fault leaves a running state whose own step is that fault (D14). -/
theorem RunGoes.fault_step (h : RunGoes n s (.fault k) u rs) : u.RUN = true ∧ step u = .fault k := by
  generalize hst : RunStatus.fault k = st at h
  induction h with
  | atRest | exhausted | halts => cases hst
  | faults hr hstep =>
    cases hst
    exact ⟨hr, hstep⟩
  | continues _ _ _ _ ih => exact ih hst

/-- A run out of budget leaves a running engine (R140). -/
theorem RunGoes.budget_RUN (h : RunGoes n s .budgetExceeded u rs) : u.RUN = true := by
  generalize hst : RunStatus.budgetExceeded = st at h
  induction h with
  | atRest | halts | faults => cases hst
  | exhausted hr => exact hr
  | continues _ _ _ _ ih => exact ih hst

/-- A run out of budget goes on where it stopped (D17). -/
theorem RunGoes.run_add (h : RunGoes n s .budgetExceeded u rs) (m : Nat) : run (n + m) s = run m u := by
  generalize hst : RunStatus.budgetExceeded = st at h
  induction h with
  | atRest | halts | faults => cases hst
  | exhausted => rw [Nat.zero_add]
  | continues hr hstep hu _ ih =>
    rw [Nat.add_right_comm, run_of_continuing hr (engineStep_continues hr hstep hu)]
    exact ih hst

end

/-- Settles O28: it holds, by induction on the way the run goes; the recursion is `run`'s own. -/
theorem runEndsAsItsStatusSays : Obligations.RunEndsAsItsStatusSays := by
  refine ⟨fun n s => ?endings, fun _ => run_zero, fun n s u hr =>
    ⟨fun h => run_of_continuing hr h n, fun h => run_of_halted hr h n, fun _ h => run_of_fault hr h n⟩⟩
  case endings =>
    have hgoes := run_goes n s
    exact ⟨fun hst => (hst ▸ hgoes).halted_RUN, fun k hst => (hst ▸ hgoes).fault_step,
      fun hst => (hst ▸ hgoes).budget_RUN⟩

/-- Settles O29: it holds, by induction on the steps made before the budget ran out. -/
theorem runContinuesAfterBudget : Obligations.RunContinuesAfterBudget := by
  intro m n s u h
  have hgoes := run_goes m s
  rw [h] at hgoes
  exact hgoes.run_add n

section
variable {n : Nat} {s u : State} {st : RunStatus} {k : Fault} {rs : List TraceRecord}

/-- Every record is of a completed step of a running engine (R142). -/
theorem RunGoes.record_step (h : RunGoes n s st u rs) :
    ∀ r ∈ rs, r.pre.RUN = true ∧ r.instr = decode (r.pre.mem.read r.pre.C.val.toNat) ∧
      step r.pre = .next r.post := by
  induction h with
  | atRest | exhausted | faults => simp
  | halts hr hstep => simpa [recordOf] using ⟨hr, hstep⟩
  | continues hr hstep _ _ ih =>
    intro r hmem
    obtain rfl | hmem := List.mem_cons.1 hmem
    · exact ⟨hr, rfl, hstep⟩
    · exact ih r hmem

/-- The first record begins where the run begins (R142). -/
theorem RunGoes.head_pre (h : RunGoes n s st u rs) {r : TraceRecord} (hhead : rs.head? = some r) :
    r.pre = s := by
  cases h with
  | atRest | exhausted | faults => cases hhead
  | halts | continues =>
    cases hhead
    rfl

/-- Each record begins where the one before it ended (R142). -/
theorem RunGoes.record_chain (h : RunGoes n s st u rs) {i : Nat} {r r' : TraceRecord} (hi : rs[i]? = some r)
    (hi' : rs[i + 1]? = some r') : r'.pre = r.post := by
  induction h generalizing i with
  | atRest | exhausted | faults | halts => simp at hi'
  | continues _ _ _ hrest ih =>
    rw [List.getElem?_cons_succ] at hi'
    cases i with
    | zero =>
      cases hi
      exact hrest.head_pre (by rw [List.head?_eq_getElem?, hi'])
    | succ i => exact ih hi hi'

/-- A run without records ends where it begins. -/
theorem RunGoes.end_of_no_record (h : RunGoes n s st u rs) (hnil : rs = []) : u = s := by
  cases h with
  | atRest | exhausted | faults => rfl
  | halts | continues => cases hnil

/-- The last record ends where the run ends (R142). -/
theorem RunGoes.last_post (h : RunGoes n s st u rs) {r : TraceRecord} (hlast : rs.getLast? = some r) :
    r.post = u := by
  induction h with
  | atRest | exhausted | faults => cases hlast
  | halts =>
    cases hlast
    rfl
  | @continues _ _ _ _ _ rs _ _ _ hrest ih =>
    cases rs with
    | nil =>
      cases hlast
      exact (hrest.end_of_no_record rfl).symm
    | cons => exact ih hlast

/-- A run has at most as many records as its budget. -/
theorem RunGoes.length_le (h : RunGoes n s st u rs) : rs.length ≤ n := by
  induction h with
  | atRest | exhausted | faults | halts => simp
  | continues _ _ _ _ ih => simpa using ih

/-- A run out of budget has as many records as its budget. -/
theorem RunGoes.length_of_budget (h : RunGoes n s .budgetExceeded u rs) : rs.length = n := by
  generalize hst : RunStatus.budgetExceeded = st at h
  induction h with
  | atRest | halts | faults => cases hst
  | exhausted => rfl
  | continues _ _ _ _ ih => simpa using ih hst

/-- The records of a faulted run are those of the run up to the fault (D28). -/
theorem RunGoes.before_fault (h : RunGoes n s (.fault k) u rs) :
    rs.length < n ∧ RunGoes rs.length s .budgetExceeded u rs := by
  generalize hst : RunStatus.fault k = st at h
  induction h with
  | atRest | exhausted | halts => cases hst
  | faults hr => exact ⟨Nat.succ_pos _, .exhausted hr⟩
  | continues hr hstep hu _ ih =>
    obtain ⟨hlt, hbefore⟩ := ih hst
    exact ⟨Nat.succ_lt_succ hlt, .continues hr hstep hu hbefore⟩

/-- The records of a halted run are those of the run up to HLT, and HLT's (D28). -/
theorem RunGoes.before_halt (h : RunGoes n s .halted u rs) (hr : s.RUN = true) :
    ∃ m v rs', rs.length = m + 1 ∧ RunGoes m s .budgetExceeded v rs' ∧ RunGoes (m + 1) s .halted u rs := by
  generalize hst : RunStatus.halted = st at h
  induction h with
  | exhausted | faults => cases hst
  | atRest hhalted => simp [hr] at hhalted
  | halts _ hstep hu => exact ⟨0, _, [], rfl, .exhausted hr, .halts hr hstep hu⟩
  | continues _ hstep hu _ ih =>
    obtain ⟨m, v, rs', hlength, hbefore, hhalts⟩ := ih hu hst
    exact ⟨m + 1, v, _, congrArg (· + 1) hlength, .continues hr hstep hu hbefore,
      .continues hr hstep hu (hst ▸ hhalts)⟩

end

/-- Settles O30: it holds, each clause by induction on the way the run goes. -/
theorem traceHasOneRecordPerCompletedStep : Obligations.TraceHasOneRecordPerCompletedStep := by
  intro n s
  have hgoes := run_goes n s
  refine ⟨hgoes.record_step, fun _ => hgoes.head_pre, fun _ _ _ => hgoes.record_chain, fun _ => hgoes.last_post,
    hgoes.end_of_no_record, hgoes.length_le, fun hst => (hst ▸ hgoes).length_of_budget, fun k hst => ?faulted,
    fun hst hr => ?halted⟩
  case faulted =>
    obtain ⟨hlt, hbefore⟩ := (hst ▸ hgoes).before_fault
    exact ⟨hlt, (run_of_goes hbefore).1⟩
  case halted =>
    obtain ⟨m, v, rs', hlength, hbefore, hhalts⟩ := (hst ▸ hgoes).before_halt hr
    exact ⟨m, hlength, congrArg Prod.fst (run_of_goes hbefore).1, (run_of_goes hhalts).1⟩

end Sys2Proof.Machine
end

section
/-! Loading an image (41_execution_cycle.md section 4, R141). -/

namespace Sys2Proof.Machine

/-- A load leaves every cell that the image does not name. -/
theorem read_loadCells_of_not_mem {cells : List (Int × Word)} {a : Nat} (hpos : ∀ c ∈ cells, 0 ≤ c.1)
    (h : (a : Int) ∉ cells.map Prod.fst) (m : Memory) : (loadCells cells m).read a = m.read a := by
  induction cells generalizing m with
  | nil => rfl
  | cons c cells ih =>
    rw [List.map_cons, List.mem_cons, not_or] at h
    have hc := hpos c List.mem_cons_self
    have hother : a ≠ c.1.toNat := by omega
    rw [loadCells, ih (fun d hd => hpos d (List.mem_cons_of_mem c hd)) h.2, Memory.read_write_other m _ hother]

/-- A load of an image that names each address once leaves its Words in its cells. -/
theorem read_loadCells_of_mem {cells : List (Int × Word)} (hpos : ∀ c ∈ cells, 0 ≤ c.1)
    (hnodup : (cells.map Prod.fst).Nodup) {c : Int × Word} (h : c ∈ cells) (m : Memory) :
    (loadCells cells m).read c.1.toNat = c.2 := by
  induction cells generalizing m with
  | nil => cases h
  | cons d cells ih =>
    have hrest := fun e he => hpos e (List.mem_cons_of_mem d he)
    obtain ⟨hfresh, hnodup⟩ := List.nodup_cons.1 hnodup
    obtain rfl | h := List.mem_cons.1 h
    · have hc : ((c.1.toNat : Nat) : Int) = c.1 := Int.toNat_of_nonneg (hpos c List.mem_cons_self)
      rw [loadCells, read_loadCells_of_not_mem hrest (hc.symm ▸ hfresh), Memory.read_write_same]
    · exact ih hrest hnodup h _

/-- An image with an address or its entry outside 0 to 161 is refused (R141). -/
theorem loadImage_of_out {img : Image} (s : State)
    (h : (∃ c ∈ img.cells, c.1 < 0 ∨ 161 < c.1) ∨ img.entry < 0 ∨ 161 < img.entry) :
    loadImage img s = .error .addressFault := by
  refine loadImage_refused (Bool.eq_false_iff.2 fun hloadable => ?_) s
  obtain ⟨hcells, hentry⟩ := img.loadable_iff.1 hloadable
  have hin := (validAddress_iff _).1 hentry
  obtain ⟨c, hc, hout⟩ | hout := h
  · have hcell := (validAddress_iff _).1 (hcells c hc)
    omega
  · omega

/-- Settles O31: it holds. The cells are written one by one, and no later write undoes an earlier one. -/
theorem loadImageCopiesCellsAndSetsEntry : Obligations.LoadImageCopiesCellsAndSetsEntry := by
  refine fun img s => ⟨fun hcells hentry hnodup => ?accepted, loadImage_of_out s⟩
  case accepted =>
    have hloadable := img.loadable_iff.2
      ⟨fun c hc => (validAddress_iff _).2 (hcells c hc), (validAddress_iff _).2 hentry⟩
    have hpos : ∀ c ∈ img.cells, 0 ≤ c.1 := fun c hc => (hcells c hc).1
    exact ⟨_, loadImage_loadable hloadable s, rfl, val_ofInt_target hentry,
      fun _ hc => read_loadCells_of_mem hpos hnodup hc s.mem,
      fun _ ha => read_loadCells_of_not_mem hpos ha s.mem⟩

end Sys2Proof.Machine
end

section
/-! The Execution Controller (60_exceptions.md section 3): its breakpoint set, and the ways a controlled run can go,
each tied to a way of the engine's own run. -/

namespace Sys2Proof.Machine

/-- Membership after an integer is added to the set (R302). -/
theorem mem_insertAddr (a b : Int) (l : List Int) : b ∈ insertAddr a l ↔ b = a ∨ b ∈ l := by
  induction l with
  | nil => simp [insertAddr]
  | cons c l ih =>
    unfold insertAddr
    split
    · simp
    · split
      case isTrue heq => simp [heq]
      case isFalse => simp [ih, or_left_comm]

/-- Adding an integer twice is adding it once (R302). -/
theorem insertAddr_insertAddr (a : Int) (l : List Int) : insertAddr a (insertAddr a l) = insertAddr a l := by
  induction l with
  | nil => simp [insertAddr]
  | cons c l ih =>
    by_cases hlt : a < c
    · simp [insertAddr, hlt]
    · by_cases heq : a = c
      · simp [insertAddr, heq]
      · simp [insertAddr, hlt, heq, ih]

/-- Settles O32: it holds, by the laws of insertion and of the filter; the other two fields are not written. -/
theorem breakpointsFormASet : Obligations.BreakpointsFormASet := by
  refine fun c a b => ⟨?twice, fun habsent => ?absent, mem_insertAddr a b c.breakpoints, ?cleared,
    rfl, rfl, rfl, rfl⟩
  case twice => simp [Controller.setBreakpoint, insertAddr_insertAddr]
  case absent =>
    have hkept : c.breakpoints.filter (fun d => decide (d ≠ a)) = c.breakpoints :=
      List.filter_eq_self.2 fun d hd => decide_eq_true fun heq => habsent (heq ▸ hd)
    rw [Controller.clearBreakpoint, hkept]
  case cleared => simp [Controller.clearBreakpoint, and_comm]

end Sys2Proof.Machine
end

section
/-! Controlled runs (60_exceptions.md section 3): the ways the loop of R303 can go, each tied to a way of the
engine's own run, and the session it leaves. -/

namespace Sys2Proof.Machine

section
variable {c : Controller} {skip : Bool}

/-- The loop on a halted engine (R303). -/
theorem Controller.runLoop_halted (hr : c.engine.RUN = false) (n : Nat) :
    runLoop n skip c = (.halted, { c with session := .halted }) ∧ traceLoop n skip c = [] := by
  unfold runLoop traceLoop
  simp [hr]

/-- The loop at a breakpoint, whatever the budget (R303). -/
theorem Controller.runLoop_stops (hr : c.engine.RUN = true) (hstop : c.stopsHere skip = true) (n : Nat) :
    runLoop n skip c = (.breakpointHit c.engine.C.val,
      { c with session := .stoppedAtBreakpoint c.engine.C.val }) ∧ traceLoop n skip c = [] := by
  unfold runLoop traceLoop
  simp [hr, hstop]

/-- The loop without budget (R303). -/
theorem Controller.runLoop_exhausted (hr : c.engine.RUN = true) (hgo : c.stopsHere skip = false) :
    runLoop 0 skip c = (.budgetExceeded, { c with session := .ready }) ∧ traceLoop 0 skip c = [] := by
  unfold runLoop traceLoop
  simp [hr, hgo]

/-- The loop at a step that continues (R303). -/
theorem Controller.runLoop_of_continuing {u : State} (hr : c.engine.RUN = true) (hgo : c.stopsHere skip = false)
    (h : engineStep c.engine = (.continuing, u)) (n : Nat) :
    runLoop (n + 1) skip c = runLoop n false { c with engine := u } ∧
      traceLoop (n + 1) skip c = c.stepTrace ++ traceLoop n false { c with engine := u } := by
  rw [runLoop, traceLoop]
  simp [hr, hgo, h]

/-- The loop at the step that halts (R303). -/
theorem Controller.runLoop_of_halted {u : State} (hr : c.engine.RUN = true) (hgo : c.stopsHere skip = false)
    (h : engineStep c.engine = (.halted, u)) (n : Nat) :
    runLoop (n + 1) skip c = (.halted, { c with engine := u, session := .halted }) ∧
      traceLoop (n + 1) skip c = c.stepTrace := by
  rw [runLoop, traceLoop]
  simp [hr, hgo, h]

/-- The loop at the step that faults (R303). -/
theorem Controller.runLoop_of_fault {u : State} {k : Fault} (hr : c.engine.RUN = true)
    (hgo : c.stopsHere skip = false) (h : engineStep c.engine = (.fault k, u)) (n : Nat) :
    runLoop (n + 1) skip c = (.fault k, { c with engine := u, session := .faulted k }) ∧
      traceLoop (n + 1) skip c = c.stepTrace := by
  rw [runLoop, traceLoop]
  simp [hr, hgo, h]

end

/-- How the loop of R303 goes from `c` with `n` steps of budget: the status and the controller it ends with, and the
records it leaves. `loop_goes` ties it to `runLoop` and `traceLoop`. -/
inductive LoopGoes : Nat → Bool → Controller → ControlStatus → Controller → List TraceRecord → Prop where
  /-- The engine was halted. -/
  | atRest {n : Nat} {skip : Bool} {c : Controller} : c.engine.RUN = false →
      LoopGoes n skip c .halted { c with session := .halted } []
  /-- The breakpoint test stops the run. -/
  | stops {n : Nat} {skip : Bool} {c : Controller} : c.engine.RUN = true → c.stopsHere skip = true →
      LoopGoes n skip c (.breakpointHit c.engine.C.val)
        { c with session := .stoppedAtBreakpoint c.engine.C.val } []
  /-- No budget is left. -/
  | exhausted {skip : Bool} {c : Controller} : c.engine.RUN = true → c.stopsHere skip = false →
      LoopGoes 0 skip c .budgetExceeded { c with session := .ready } []
  /-- The step halts. -/
  | halts {n : Nat} {skip : Bool} {c : Controller} {u : State} : c.engine.RUN = true → c.stopsHere skip = false →
      step c.engine = .next u → u.RUN = false →
      LoopGoes (n + 1) skip c .halted { c with engine := u, session := .halted } [recordOf c.engine u]
  /-- The step faults. -/
  | faults {n : Nat} {skip : Bool} {c : Controller} {k : Fault} : c.engine.RUN = true →
      c.stopsHere skip = false → step c.engine = .fault k →
      LoopGoes (n + 1) skip c (.fault k) { c with session := .faulted k } []
  /-- The step continues, and the loop goes on from its state. -/
  | continues {n : Nat} {skip : Bool} {c d : Controller} {u : State} {st : ControlStatus}
      {rs : List TraceRecord} : c.engine.RUN = true → c.stopsHere skip = false → step c.engine = .next u →
      u.RUN = true → LoopGoes n false { c with engine := u } st d rs →
      LoopGoes (n + 1) skip c st d (recordOf c.engine u :: rs)

/-- The loop of R303 goes one of these ways. -/
theorem loop_goes (n : Nat) (skip : Bool) (c : Controller) :
    LoopGoes n skip c (Controller.runLoop n skip c).1 (Controller.runLoop n skip c).2
      (Controller.traceLoop n skip c) := by
  cases hr : c.engine.RUN with
  | false =>
    obtain ⟨hrun, htrace⟩ := Controller.runLoop_halted (skip := skip) hr n
    rw [hrun, htrace]
    exact .atRest hr
  | true =>
    cases hstop : c.stopsHere skip with
    | true =>
      obtain ⟨hrun, htrace⟩ := Controller.runLoop_stops hr hstop n
      rw [hrun, htrace]
      exact .stops hr hstop
    | false =>
      cases n with
      | zero =>
        obtain ⟨hrun, htrace⟩ := Controller.runLoop_exhausted hr hstop
        rw [hrun, htrace]
        exact .exhausted hr hstop
      | succ n =>
        obtain ⟨u, hstep, hu⟩ | ⟨u, hstep, hu⟩ | ⟨k, hstep⟩ := step_cases c.engine
        · obtain ⟨hrun, htrace⟩ := Controller.runLoop_of_continuing hr hstop (engineStep_continues hr hstep hu) n
          rw [hrun, htrace, Controller.stepTrace, stepTrace_of_next hr hstep]
          exact .continues hr hstop hstep hu (loop_goes n false _)
        · obtain ⟨hrun, htrace⟩ := Controller.runLoop_of_halted hr hstop (engineStep_halts hr hstep hu) n
          rw [hrun, htrace, Controller.stepTrace, stepTrace_of_next hr hstep]
          exact .halts hr hstop hstep hu
        · obtain ⟨hrun, htrace⟩ := Controller.runLoop_of_fault hr hstop (engineStep_fault hr hstep) n
          rw [hrun, htrace, Controller.stepTrace, stepTrace_of_fault hstep]
          exact .faults hr hstop hstep

/-- The way a run call goes (R303, R305). -/
theorem Controller.runUntil_goes (c : Controller) (n : Nat) :
    LoopGoes n c.resumes { c with session := .running } (c.runUntil n).1 (c.runUntil n).2 (c.runTrace n) :=
  loop_goes n c.resumes { c with session := .running }

/-- The session that a status of the loop leaves (R301). -/
def sessionOf : ControlStatus → Session
  | .halted => .halted
  | .breakpointHit a => .stoppedAtBreakpoint a
  | .budgetExceeded => .ready
  | .fault k => .faulted k

theorem sessionOf_ne_running (st : ControlStatus) : sessionOf st ≠ .running := by
  cases st <;> simp [sessionOf]

/-- The status of the loop that stands for a status of the engine's run (R303). -/
def controlStatusOf : RunStatus → ControlStatus
  | .halted => .halted
  | .fault k => .fault k
  | .budgetExceeded => .budgetExceeded

section
variable {n : Nat} {skip : Bool} {c d : Controller} {st : ControlStatus} {a : Int} {rs : List TraceRecord}

/-- The loop leaves the session of its status (R301). -/
theorem LoopGoes.session (h : LoopGoes n skip c st d rs) : d.session = sessionOf st := by
  induction h with
  | atRest | stops | exhausted | halts | faults => rfl
  | continues _ _ _ _ _ ih => exact ih

/-- The loop keeps the breakpoint set (R302). -/
theorem LoopGoes.breakpoints (h : LoopGoes n skip c st d rs) : d.breakpoints = c.breakpoints := by
  induction h with
  | atRest | stops | exhausted | halts | faults => rfl
  | continues _ _ _ _ _ ih => exact ih

/-- A loop that reports a breakpoint stands at it, in a running engine (R302, R303). -/
theorem LoopGoes.stands_at (h : LoopGoes n skip c (.breakpointHit a) d rs) :
    d.engine.C.val = a ∧ (0 ≤ a ∧ a ≤ 161) ∧ a ∈ c.breakpoints ∧ d.engine.RUN = true := by
  generalize hst : ControlStatus.breakpointHit a = st at h
  induction h with
  | atRest | exhausted | halts | faults => cases hst
  | stops hr hstop =>
    cases hst
    obtain ⟨-, hC, hmem⟩ := (Controller.stopsHere_iff ..).1 hstop
    exact ⟨rfl, hC, hmem, hr⟩
  | continues _ _ _ _ _ ih => exact ih hst

/-- A loop that reports a breakpoint has made some of the engine's steps (R303). -/
theorem LoopGoes.run_up_to (h : LoopGoes n skip c (.breakpointHit a) d rs) :
    ∃ m, m ≤ n ∧ RunGoes m c.engine .budgetExceeded d.engine rs := by
  generalize hst : ControlStatus.breakpointHit a = st at h
  induction h with
  | atRest | exhausted | halts | faults => cases hst
  | stops hr => exact ⟨0, Nat.zero_le _, .exhausted hr⟩
  | continues hr _ hstep hu _ ih =>
    obtain ⟨m, hm, hgoes⟩ := ih hst
    exact ⟨m + 1, Nat.succ_le_succ hm, .continues hr hstep hu hgoes⟩

/-- A loop that reports no breakpoint goes as the engine's own run (R303). -/
theorem LoopGoes.run_of_no_stop (h : LoopGoes n skip c st d rs) (hne : ∀ a, st ≠ .breakpointHit a) :
    ∃ rst, st = controlStatusOf rst ∧ RunGoes n c.engine rst d.engine rs := by
  induction h with
  | stops => exact absurd rfl (hne _)
  | atRest hr => exact ⟨.halted, rfl, .atRest hr⟩
  | exhausted hr => exact ⟨.budgetExceeded, rfl, .exhausted hr⟩
  | halts hr _ hstep hu => exact ⟨.halted, rfl, .halts hr hstep hu⟩
  | faults hr _ hstep => exact ⟨.fault _, rfl, .faults hr hstep⟩
  | continues hr _ hstep hu _ ih =>
    obtain ⟨rst, hst, hgoes⟩ := ih hne
    exact ⟨rst, hst, .continues hr hstep hu hgoes⟩

end

/-- Settles O33: it holds; the stop is the loop's first test, and a reported breakpoint is the test that held. -/
theorem breakpointStopStandsAtTheBreakpoint : Obligations.BreakpointStopStandsAtTheBreakpoint := by
  refine ⟨fun c n hr hC hmem hsession => ?stops, fun c d n a h => ?stands⟩
  case stops =>
    have hfresh : c.resumes = false := Bool.eq_false_iff.2 fun h => hsession (c.resumes_iff.1 h)
    have hstop : Controller.stopsHere c.resumes { c with session := .running } = true :=
      (Controller.stopsHere_iff ..).2 ⟨hfresh, hC, hmem⟩
    exact Controller.runLoop_stops (c := { c with session := .running }) hr hstop n
  case stands =>
    have hgoes := c.runUntil_goes n
    rw [h] at hgoes
    obtain ⟨hCd, ha, hmem, hr⟩ := hgoes.stands_at
    exact ⟨hCd, ha, hmem, hr, hgoes.session, hgoes.breakpoints⟩

/-- Settles O34: it holds, each way of the loop being a way of the engine's run. -/
theorem controlledRunWithoutBreakpointsIsRun : Obligations.ControlledRunWithoutBreakpointsIsRun := by
  intro c n
  have hgoes := c.runUntil_goes n
  refine ⟨fun a hst => ?stopped, fun hne => ?ran, fun hempty a hst => ?none⟩
  case stopped =>
    obtain ⟨m, hm, hrun⟩ := (hst ▸ hgoes).run_up_to
    obtain ⟨hresult, htrace⟩ := run_of_goes hrun
    exact ⟨m, hm, hresult, htrace.symm⟩
  case ran =>
    obtain ⟨rst, hst, hrun⟩ := hgoes.run_of_no_stop hne
    obtain ⟨hresult, htrace⟩ := run_of_goes hrun
    rw [hst]
    dsimp only at hresult htrace
    rw [hresult, htrace]
    cases rst <;> simp [controlStatusOf]
  case none =>
    obtain ⟨-, -, hmem, -⟩ := (hst ▸ hgoes).stands_at
    simp [hempty] at hmem

/-- A call that resumes makes one step untested and goes on as a call from a Ready session (R305). -/
theorem Controller.runUntil_resumes {c : Controller} {u : State}
    (hsession : c.session = .stoppedAtBreakpoint c.engine.C.val) (h : engineStep c.engine = (.continuing, u))
    (n : Nat) : c.runUntil (n + 1) = Controller.runUntil { c with engine := u, session := .ready } n := by
  have hr : c.engine.RUN = true := by
    by_contra hhalted
    simp [engineStep_halted (Bool.eq_false_iff.2 hhalted)] at h
  unfold Controller.runUntil
  rw [c.resumes_iff.2 hsession]
  exact (Controller.runLoop_of_continuing (c := { c with session := .running }) hr (stopsHere_skipped _) h n).1

/-- A single step leaves the session of its status (R304). -/
theorem Controller.step_of_engineStep {c : Controller} {u : State} {st : Status}
    (h : engineStep c.engine = (st, u)) : c.step = (st, { c with engine := u, session := sessionAfter st }) := by
  rw [Controller.step, h]

/-- An accepted load leaves the session of an engine at rest (R301). -/
theorem Controller.loadImage_of_ok {c : Controller} {img : Image} {u : State}
    (h : Machine.loadImage img c.engine = .ok u) :
    c.loadImage img = .ok { c with engine := u, session := restingSession u } := by
  rw [Controller.loadImage, h]

/-- A refused load is the engine's refusal (R141). -/
theorem Controller.loadImage_of_error {c : Controller} {img : Image} {k : Fault}
    (h : Machine.loadImage img c.engine = .error k) : c.loadImage img = .error k := by
  rw [Controller.loadImage, h]

/-- Settles O35: it holds, one rule for each call; a load keeps `RUN`, which is what the session at rest follows. -/
theorem sessionMatchesTheRunsEnding : Obligations.SessionMatchesTheRunsEnding := by
  refine ⟨fun c n => ?runs, fun c u => ⟨fun h => ?_, fun h => ?_, fun k h => ?_⟩, fun c img u h => ?loads,
    fun c img k h => Controller.loadImage_of_error h, fun c => rfl⟩
  case runs =>
    have hgoes := c.runUntil_goes n
    have hsession := hgoes.session
    refine ⟨fun hst => ?_, fun hst => ?_, fun k hst => ?_, ?_, hgoes.breakpoints,
      fun u hstopped hstep => Controller.runUntil_resumes hstopped hstep n⟩
    · rw [hsession, hst]; rfl
    · rw [hsession, hst]; rfl
    · rw [hsession, hst]; rfl
    · rw [hsession]
      exact sessionOf_ne_running _
  case loads =>
    have hload := Controller.loadImage_of_ok h
    rw [restingSession, loadImage_RUN h] at hload
    exact ⟨fun hr => by simpa [hr] using hload, fun hr => by simpa [hr] using hload⟩
  all_goals exact Controller.step_of_engineStep h

end Sys2Proof.Machine
end

section
/-! Pass 1 of the assembler (47_assembler.md section 3): what it does with a line, from the rules of its parts, and
what every completed pass leaves. -/

namespace Sys2Proof.Machine

/-- A label already bound is DuplicateLabel (R249). -/
theorem Pass1.bindLabel_duplicate {p : Pass1} {name : List Char} {a : Int}
    (h : lookupLabel name p.labels = some a) : p.bindLabel (some name) = .error .duplicateLabel := by
  simp [Pass1.bindLabel, h]

/-- A line's label, if any, is bound to the counter; nothing else changes (R249). -/
theorem Pass1.bindLabel_fresh {p : Pass1} {label : Option (List Char)}
    (h : ∀ name, label = some name → lookupLabel name p.labels = none) :
    p.bindLabel label = .ok { p with labels := p.labels ++ label.toList.map fun name => (name, p.counter) } := by
  cases label with
  | none => simp [Pass1.bindLabel]
  | some name => simp [Pass1.bindLabel, h name rfl]

/-- Binding a label writes no emission and keeps the counter (R249). -/
theorem Pass1.bindLabel_ok {p q : Pass1} {label : Option (List Char)} (h : p.bindLabel label = .ok q) :
    q.counter = p.counter ∧ q.emissions = p.emissions := by
  cases label with
  | none =>
    cases h
    exact ⟨rfl, rfl⟩
  | some name =>
    cases hlookup : lookupLabel name p.labels with
    | some a =>
      rw [Pass1.bindLabel_duplicate hlookup] at h
      cases h
    | none =>
      rw [Pass1.bindLabel_fresh (by simpa using hlookup)] at h
      cases h
      exact ⟨rfl, rfl⟩

/-- The emissions have the counter's address among them, as the collision check reads it (R253). -/
theorem Pass1.any_addr_iff (p : Pass1) :
    p.emissions.any (fun e => decide (e.addr = p.counter)) = true ↔ ∃ e ∈ p.emissions, e.addr = p.counter := by
  simp

/-- Outside memory nothing can be emitted (R256). -/
theorem Pass1.emitItem_out {p : Pass1} (h : p.counter < 0 ∨ 161 < p.counter) (item : Item) (line : SourceLine) :
    p.emitItem item line = .error .addressOutOfRange := by
  rw [Pass1.emitItem, (validAddress_false_iff _).2 h]

/-- At an address that has its Word nothing more can be emitted (R253). -/
theorem Pass1.emitItem_collision {p : Pass1} (hin : 0 ≤ p.counter ∧ p.counter ≤ 161)
    (h : ∃ e ∈ p.emissions, e.addr = p.counter) (item : Item) (line : SourceLine) :
    p.emitItem item line = .error .addressCollision := by
  rw [Pass1.emitItem, (validAddress_iff _).2 hin, p.any_addr_iff.2 h]

/-- At a free cell the item is emitted at the counter, which advances by one (R252). -/
theorem Pass1.emitItem_free {p : Pass1} (hin : 0 ≤ p.counter ∧ p.counter ≤ 161)
    (h : ∀ e ∈ p.emissions, e.addr ≠ p.counter) (item : Item) (line : SourceLine) :
    p.emitItem item line = .ok { p with
      counter := p.counter + 1
      emissions := p.emissions ++ [{ addr := p.counter, item := item, line := line }] } := by
  have hfree : p.emissions.any (fun e => decide (e.addr = p.counter)) = false :=
    Bool.eq_false_iff.2 fun hany => by
      obtain ⟨e, he, haddr⟩ := p.any_addr_iff.1 hany
      exact h e he haddr
  rw [Pass1.emitItem, (validAddress_iff _).2 hin, hfree]

/-- What an accepted emission was: the counter at a free cell, and the item appended there (R252, R253, R256). -/
theorem Pass1.emitItem_ok {p q : Pass1} {item : Item} {line : SourceLine} (h : p.emitItem item line = .ok q) :
    (0 ≤ p.counter ∧ p.counter ≤ 161) ∧ (∀ e ∈ p.emissions, e.addr ≠ p.counter) ∧
      q.emissions = p.emissions ++ [{ addr := p.counter, item := item, line := line }] := by
  by_cases hin : 0 ≤ p.counter ∧ p.counter ≤ 161
  · by_cases hfree : ∀ e ∈ p.emissions, e.addr ≠ p.counter
    · rw [Pass1.emitItem_free hin hfree] at h
      cases h
      exact ⟨hin, hfree, rfl⟩
    · rw [Pass1.emitItem_collision hin (by simpa using hfree)] at h
      cases h
  · rw [Pass1.emitItem_out (by omega)] at h
    cases h

/-- A line that defines a bound label again is DuplicateLabel, whatever follows (R249, R260). -/
theorem Pass1.statement_duplicate {p : Pass1} {line : SourceLine} {ts rest : List (List Char)} {name : List Char}
    {a : Int} (hsplit : splitLabel ts = .ok (some name, rest)) (h : lookupLabel name p.labels = some a) :
    p.statement line ts = .error .duplicateLabel := by
  simp [Pass1.statement, hsplit, Pass1.bindLabel_duplicate h]

/-- A line with a fresh label, or none, performs its action after the label is bound (R248, R249). -/
theorem Pass1.statement_fresh {p : Pass1} {line : SourceLine} {ts rest : List (List Char)}
    {label : Option (List Char)} {labels : List (List Char × Int)} {action : Action}
    (hsplit : splitLabel ts = .ok (label, rest)) (h : ∀ name, label = some name → lookupLabel name p.labels = none)
    (hlabels : labels = p.labels ++ label.toList.map fun name => (name, p.counter))
    (hrest : parseRest rest = .ok action) :
    p.statement line ts = Pass1.perform { p with labels := labels } line action := by
  simp [Pass1.statement, hsplit, Pass1.bindLabel_fresh h, hrest, hlabels]

/-- What an accepted line was (R260). -/
theorem Pass1.statement_ok {p q : Pass1} {line : SourceLine} {ts : List (List Char)}
    (h : p.statement line ts = .ok q) :
    ∃ label rest bound action, splitLabel ts = .ok (label, rest) ∧ p.bindLabel label = .ok bound ∧
      parseRest rest = .ok action ∧ bound.perform line action = .ok q := by
  unfold Pass1.statement at h
  cases hsplit : splitLabel ts with
  | error k => simp [hsplit] at h
  | ok parts =>
    cases hbind : p.bindLabel parts.1 with
    | error k => simp [hsplit, hbind] at h
    | ok bound =>
      cases hrest : parseRest parts.2 with
      | error k => simp [hsplit, hbind, hrest] at h
      | ok action =>
        exact ⟨parts.1, parts.2, bound, action, rfl, hbind, hrest, by simpa [hsplit, hbind, hrest] using h⟩

/-- An accepted line is followed by the others (R248). -/
theorem pass1_cons_of_ok {line : SourceLine} {p q : Pass1} (h : p.statement line (tokens line.text) = .ok q)
    (lines : List SourceLine) : pass1 (line :: lines) p = pass1 lines q := by
  simp [pass1, h, reportAt]

/-- What a completed pass was on its first line (R248). -/
theorem pass1_cons_ok {line : SourceLine} {lines : List SourceLine} {p q : Pass1}
    (h : pass1 (line :: lines) p = .ok q) :
    ∃ r, p.statement line (tokens line.text) = .ok r ∧ pass1 lines r = .ok q := by
  cases hline : p.statement line (tokens line.text) with
  | error k => simp [pass1, hline, reportAt] at h
  | ok r => exact ⟨r, rfl, by rwa [pass1_cons_of_ok hline] at h⟩

/-- Settles O60: it holds, one rule for each part of a line. -/
theorem passOneFollowsTheLocationCounter : Obligations.PassOneFollowsTheLocationCounter := by
  refine ⟨rfl, fun line lines p q h => pass1_cons_of_ok h lines, fun p line ts rest label hsplit =>
    ⟨fun name a hname hbound => ?duplicate, fun hfresh labels hlabels => ?fresh⟩⟩
  case duplicate =>
    subst hname
    exact Pass1.statement_duplicate hsplit hbound
  case fresh =>
    refine ⟨Pass1.statement_fresh hsplit hfresh hlabels, fun n => Pass1.statement_fresh hsplit hfresh hlabels,
      fun item hrest => ?emits⟩
    rw [Pass1.statement_fresh hsplit hfresh hlabels hrest]
    exact ⟨fun hout => Pass1.emitItem_out (p := { p with labels := labels }) hout item line, fun hin =>
      ⟨fun htaken => Pass1.emitItem_collision (p := { p with labels := labels }) hin htaken item line,
        fun hfree => Pass1.emitItem_free (p := { p with labels := labels }) hin hfree item line⟩⟩

/-- What a line adds to the emissions: nothing, or what it emits, at a free cell (R248, R252). -/
theorem Pass1.statement_emissions {p q : Pass1} {line : SourceLine} {ts : List (List Char)}
    (h : p.statement line ts = .ok q) :
    ∃ label rest action, splitLabel ts = .ok (label, rest) ∧ parseRest rest = .ok action ∧
      (((∀ item, action ≠ .emit item) ∧ q.emissions = p.emissions) ∨
        ∃ item, action = .emit item ∧ (0 ≤ p.counter ∧ p.counter ≤ 161) ∧
          (∀ e ∈ p.emissions, e.addr ≠ p.counter) ∧
          q.emissions = p.emissions ++ [{ addr := p.counter, item := item, line := line }]) := by
  obtain ⟨label, rest, bound, action, hsplit, hbind, hrest, hperform⟩ := Pass1.statement_ok h
  obtain ⟨hcounter, hemissions⟩ := Pass1.bindLabel_ok hbind
  refine ⟨label, rest, action, hsplit, hrest, ?_⟩
  cases action with
  | nothing | org n =>
    cases hperform
    exact .inl ⟨by simp, hemissions⟩
  | emit item =>
    have hemit := Pass1.emitItem_ok hperform
    rw [hcounter, hemissions] at hemit
    exact .inr ⟨item, rfl, hemit⟩

/-- The items that a line can emit: an instruction's opcode is that of a row of the mnemonic table (R244). -/
def Item.fromTable : Item → Prop
  | .data _ => True
  | .instruction opc _ => ∃ m cls, lookupMnemonic m mnemonicTable = some (opc, cls)

/-- What holds of the emissions throughout pass 1: addresses of cells, each once, and items that a line can emit. -/
structure Pass1.EmissionsWf (p : Pass1) : Prop where
  /-- No two emissions share an address (R253). -/
  nodup : (p.emissions.map Emission.addr).Nodup
  /-- Every address is that of a cell (R256). -/
  inMemory : ∀ e ∈ p.emissions, 0 ≤ e.addr ∧ e.addr ≤ 161
  /-- Every instruction's opcode is the table's (R244). -/
  fromTable : ∀ e ∈ p.emissions, e.item.fromTable

/-- A mapped result comes from a result. -/
theorem map_eq_ok {ε α β : Type} {f : α → β} {x : Except ε α} {b : β} (h : x.map f = .ok b) :
    ∃ a, x = .ok a ∧ f a = b := by
  cases x with
  | error => cases h
  | ok a =>
    cases h
    exact ⟨a, rfl, rfl⟩

/-- What a line emits, an instruction has from the mnemonic table (R244, R251, R252). -/
theorem fromTable_of_parseAction {m : List Char} {o : Option (List Char)} {item : Item}
    (h : parseAction m o = .ok (.emit item)) : item.fromTable := by
  unfold parseAction at h
  split at h
  · obtain ⟨n, -, hitem⟩ := map_eq_ok h
    cases hitem
    trivial
  · split at h
    · obtain ⟨n, -, hitem⟩ := map_eq_ok h
      cases hitem
    · split at h
      · cases h
      next opc cls hrow =>
        obtain ⟨op, -, hitem⟩ := map_eq_ok h
        cases hitem
        exact ⟨m, cls, hrow⟩

theorem fromTable_of_parseRest {ts : List (List Char)} {item : Item} (h : parseRest ts = .ok (.emit item)) :
    item.fromTable := by
  unfold parseRest at h
  split at h
  · cases h
  · split at h
    · cases h
    · exact fromTable_of_parseAction h
  · split at h
    · cases h
    · exact fromTable_of_parseAction h
  · cases h

/-- A line keeps the form of the emissions. -/
theorem Pass1.EmissionsWf.statement {p q : Pass1} {line : SourceLine} {ts : List (List Char)} (hp : p.EmissionsWf)
    (h : p.statement line ts = .ok q) : q.EmissionsWf := by
  obtain ⟨label, rest, action, -, hrest, ⟨-, hsame⟩ | ⟨item, rfl, hin, hfree, hmore⟩⟩ := statement_emissions h
  · exact { nodup := hsame ▸ hp.nodup, inMemory := hsame ▸ hp.inMemory, fromTable := hsame ▸ hp.fromTable }
  · have htable := fromTable_of_parseRest hrest
    refine { nodup := ?nodup, inMemory := ?inMemory, fromTable := ?fromTable }
    case nodup =>
      rw [hmore, List.map_append, List.map_singleton, List.nodup_append]
      refine ⟨hp.nodup, List.nodup_singleton _, ?_⟩
      simpa using hfree
    all_goals
      rw [hmore, List.forall_mem_append]
    case inMemory => exact ⟨hp.inMemory, by simpa using hin⟩
    case fromTable => exact ⟨hp.fromTable, by simpa using htable⟩

/-- A completed pass keeps the form of the emissions. -/
theorem Pass1.EmissionsWf.pass1 {lines : List SourceLine} {p q : Pass1} (hp : p.EmissionsWf)
    (h : Machine.pass1 lines p = .ok q) : q.EmissionsWf := by
  induction lines generalizing p with
  | nil =>
    cases h
    exact hp
  | cons line lines ih =>
    obtain ⟨r, hline, hrest⟩ := pass1_cons_ok h
    exact ih (hp.statement hline) hrest

theorem Pass1.start_emissionsWf : Pass1.start.EmissionsWf where
  nodup := List.nodup_nil
  inMemory := by simp [Pass1.start]
  fromTable := by simp [Pass1.start]

/-- No emission is taken back. -/
theorem pass1_keeps_emissions {lines : List SourceLine} {p q : Pass1} (h : pass1 lines p = .ok q) {e : Emission}
    (he : e ∈ p.emissions) : e ∈ q.emissions := by
  induction lines generalizing p with
  | nil =>
    cases h
    exact he
  | cons line lines ih =>
    obtain ⟨r, hline, hrest⟩ := pass1_cons_ok h
    refine ih hrest ?_
    obtain ⟨_, _, _, _, _, ⟨_, hsame⟩ | ⟨_, _, _, _, hmore⟩⟩ := Pass1.statement_emissions hline
    · rwa [hsame]
    · rw [hmore]
      exact List.mem_append_left _ he

/-- Every emitting line has its emission after pass 1 (R248, R252). -/
theorem pass1_emits {lines : List SourceLine} {p q : Pass1} (h : pass1 lines p = .ok q) {line : SourceLine}
    (hline : line ∈ lines) {label : Option (List Char)} {rest : List (List Char)} {item : Item}
    (hsplit : splitLabel (tokens line.text) = .ok (label, rest)) (hrest : parseRest rest = .ok (.emit item)) :
    ∃ e ∈ q.emissions, e.line = line ∧ e.item = item := by
  induction lines generalizing p with
  | nil => cases hline
  | cons first lines ih =>
    obtain ⟨r, hfirst, htail⟩ := pass1_cons_ok h
    obtain rfl | hline := List.mem_cons.1 hline
    · obtain ⟨label', rest', action, hsplit', hrest', hcases⟩ := Pass1.statement_emissions hfirst
      obtain ⟨rfl, rfl⟩ : label = label' ∧ rest = rest' := by simpa [hsplit] using hsplit'
      obtain rfl : Action.emit item = action := by simpa [hrest] using hrest'
      obtain ⟨hnone, -⟩ | ⟨item', hitem, -, -, hmore⟩ := hcases
      · exact absurd rfl (hnone item)
      · cases hitem
        exact ⟨_, pass1_keeps_emissions htail (hmore ▸ List.mem_append_right _ List.mem_cons_self), rfl, rfl⟩
    · exact ih htail hline

end Sys2Proof.Machine
end

section
/-! Pass 2 and the image (47_assembler.md sections 4 and 6): the cells are the emissions resolved, in rising order,
and the entry is the first instruction's address. -/

namespace Sys2Proof.Machine

/-- What a completed pass 2 was on its first emission (R254). -/
theorem pass2_cons_ok {labels : List (List Char × Int)} {e : Emission} {es : List Emission}
    {cells : List (Int × Word)} (h : pass2 labels (e :: es) = .ok cells) :
    ∃ w rest, itemWord labels e.item = .ok w ∧ pass2 labels es = .ok rest ∧
      cells = insertImageCell e.addr w rest := by
  cases hw : itemWord labels e.item with
  | error k => simp [pass2, hw, reportAt] at h
  | ok w =>
    cases hrest : pass2 labels es with
    | error err => simp [pass2, hw, hrest, reportAt] at h
    | ok rest => exact ⟨w, rest, rfl, rfl, by simpa [pass2, hw, hrest, reportAt] using h.symm⟩

theorem mem_insertImageCell (a : Int) (w : Word) (c : Int × Word) (l : List (Int × Word)) :
    c ∈ insertImageCell a w l ↔ c = (a, w) ∨ c ∈ l := by
  induction l with
  | nil => simp [insertImageCell]
  | cons d l ih =>
    unfold insertImageCell
    split
    · simp
    · simp [ih, or_left_comm]

/-- The image's cells are the emissions' addresses with their Words (R254). -/
theorem mem_pass2_iff {labels : List (List Char × Int)} {es : List Emission} {cells : List (Int × Word)}
    (h : pass2 labels es = .ok cells) (c : Int × Word) :
    c ∈ cells ↔ ∃ e ∈ es, e.addr = c.1 ∧ itemWord labels e.item = .ok c.2 := by
  induction es generalizing cells with
  | nil =>
    cases h
    simp
  | cons e es ih =>
    obtain ⟨w, rest, hw, hrest, rfl⟩ := pass2_cons_ok h
    rw [mem_insertImageCell, ih hrest]
    simp [hw, Prod.ext_iff, eq_comm]

/-- Every emission has its cell in the image (R254). -/
theorem pass2_resolves {labels : List (List Char × Int)} {es : List Emission} {cells : List (Int × Word)}
    (h : pass2 labels es = .ok cells) {e : Emission} (he : e ∈ es) :
    ∃ w, itemWord labels e.item = .ok w ∧ (e.addr, w) ∈ cells := by
  have hresolved : ∃ w, itemWord labels e.item = .ok w := by
    induction es generalizing cells with
    | nil => cases he
    | cons d es ih =>
      obtain ⟨w, rest, hw, hrest, -⟩ := pass2_cons_ok h
      obtain rfl | he := List.mem_cons.1 he
      · exact ⟨w, hw⟩
      · exact ih hrest he
  obtain ⟨w, hw⟩ := hresolved
  exact ⟨w, hw, (mem_pass2_iff h (e.addr, w)).2 ⟨e, he, rfl, hw⟩⟩

/-- The rising order of a list with a first cell, unfolded once. -/
theorem risingFrom_cons (lo a : Int) (w : Word) (l : List (Int × Word)) :
    risingFrom lo ((a, w) :: l) = true ↔ lo ≤ a ∧ risingFrom (a + 1) l = true := by
  rw [risingFrom, Bool.and_eq_true, decide_eq_true_eq]

/-- A cell at a new address keeps the rising order. -/
theorem risingFrom_insertImageCell {l : List (Int × Word)} {lo a : Int} (w : Word) (hlo : lo ≤ a)
    (hnew : ∀ c ∈ l, c.1 ≠ a) (h : risingFrom lo l = true) : risingFrom lo (insertImageCell a w l) = true := by
  induction l generalizing lo with
  | nil => exact (risingFrom_cons lo a w []).2 ⟨hlo, rfl⟩
  | cons c l ih =>
    obtain ⟨b, v⟩ := c
    obtain ⟨hb, hrest⟩ := (risingFrom_cons lo b v l).1 h
    have hne : b ≠ a := hnew (b, v) List.mem_cons_self
    unfold insertImageCell
    split
    case isTrue hlt =>
      exact (risingFrom_cons ..).2 ⟨hlo, (risingFrom_cons ..).2 ⟨hlt, hrest⟩⟩
    case isFalse hge =>
      exact (risingFrom_cons ..).2 ⟨hb, ih (by omega) (fun d hd => hnew d (List.mem_cons_of_mem _ hd)) hrest⟩

/-- The cells of emissions with distinct addresses rise (R261). -/
theorem risingFrom_pass2 {labels : List (List Char × Int)} {es : List Emission} {cells : List (Int × Word)}
    (h : pass2 labels es = .ok cells) (hnodup : (es.map Emission.addr).Nodup) (hpos : ∀ e ∈ es, 0 ≤ e.addr) :
    risingFrom 0 cells = true := by
  induction es generalizing cells with
  | nil =>
    cases h
    rfl
  | cons e es ih =>
    obtain ⟨w, rest, -, hrest, rfl⟩ := pass2_cons_ok h
    obtain ⟨hfresh, hnodup⟩ := List.nodup_cons.1 hnodup
    refine risingFrom_insertImageCell w (hpos e List.mem_cons_self) (fun c hc haddr => hfresh ?_)
      (ih hrest hnodup fun d hd => hpos d (List.mem_cons_of_mem e hd))
    obtain ⟨d, hd, hda, -⟩ := (mem_pass2_iff hrest c).1 hc
    exact List.mem_map.2 ⟨d, hd, hda.trans haddr⟩

/-- The entry is 0 or an emission's address (R262). -/
theorem entryOf_mem (es : List Emission) : entryOf es = 0 ∨ ∃ e ∈ es, entryOf es = e.addr := by
  induction es with
  | nil => exact .inl rfl
  | cons e es ih =>
    unfold entryOf
    split
    · exact .inr ⟨e, List.mem_cons_self, rfl⟩
    · obtain hzero | ⟨d, hd, hentry⟩ := ih
      · exact .inl hzero
      · exact .inr ⟨d, List.mem_cons_of_mem e hd, hentry⟩

/-- Data before the first instruction do not count for the entry (R262). -/
theorem entryOf_append {before : List Emission} (h : ∀ d ∈ before, ∃ v, d.item = .data v) (es : List Emission) :
    entryOf (before ++ es) = entryOf es := by
  induction before with
  | nil => rfl
  | cons d before ih =>
    obtain ⟨v, hv⟩ := h d List.mem_cons_self
    rw [List.cons_append, entryOf, hv]
    exact ih fun d' hd' => h d' (List.mem_cons_of_mem d hd')

/-- What an assembled image is: the cells of pass 2 on what pass 1 left (R240). -/
theorem assemble_ok {src : List Char} {img : Image} (h : assemble src = .ok img) :
    ∃ p cells, pass1 (sourceLines src) Pass1.start = .ok p ∧ pass2 p.labels p.emissions = .ok cells ∧
      img = { cells := cells, labels := p.labels, entry := entryOf p.emissions } := by
  unfold assemble at h
  cases hpass1 : pass1 (sourceLines src) Pass1.start with
  | error e => simp [hpass1] at h
  | ok p =>
    cases hpass2 : pass2 p.labels p.emissions with
    | error e => simp [hpass1, hpass2] at h
    | ok cells => exact ⟨p, cells, rfl, hpass2, by simpa [hpass1, hpass2] using h.symm⟩

/-- An image that is well formed is loadable: the rising order is all that is left out. -/
theorem Image.wf_iff (img : Image) : img.wf = true ↔ risingFrom 0 img.cells = true ∧ img.loadable = true := by
  rw [Image.wf, Image.loadable, Bool.and_assoc, Bool.and_eq_true]

/-- Every assembled image is well formed (R261, D25). -/
theorem wf_of_assemble {src : List Char} {img : Image} (h : assemble src = .ok img) : img.wf = true := by
  obtain ⟨p, cells, hpass1, hpass2, rfl⟩ := assemble_ok h
  have hwf := Pass1.start_emissionsWf.pass1 hpass1
  refine (Image.wf_iff _).2 ⟨risingFrom_pass2 hpass2 hwf.nodup fun e he => (hwf.inMemory e he).1,
    (Image.loadable_iff _).2 ⟨fun c hc => ?cell, ?entry⟩⟩
  case cell =>
    obtain ⟨e, he, haddr, -⟩ := (mem_pass2_iff hpass2 c).1 hc
    exact (validAddress_iff _).2 (haddr ▸ hwf.inMemory e he)
  case entry =>
    obtain hzero | ⟨e, he, hentry⟩ := entryOf_mem p.emissions
    · exact (validAddress_iff _).2 (by dsimp only; omega)
    · exact (validAddress_iff _).2 (hentry ▸ hwf.inMemory e he)

/-- Settles O36: it holds; a well-formed image is loadable, and its entry is an address, which a Word holds. -/
theorem assembledImagesAlwaysLoad : Obligations.AssembledImagesAlwaysLoad := by
  intro src img h
  have hwf := wf_of_assemble h
  obtain ⟨-, hloadable⟩ := img.wf_iff.1 hwf
  have hentry := (validAddress_iff _).1 (img.loadable_iff.1 hloadable).2
  exact ⟨hwf, fun s => ⟨_, loadImage_loadable hloadable s, val_ofInt_target hentry⟩⟩

end Sys2Proof.Machine
end

section
/-! The mnemonic table against the decoder (47_assembler.md section 2, 30_encoding.md section 2), and what the Words
of an image say. -/

namespace Sys2Proof.Machine

/-- A row that is looked up stands in the table. -/
theorem mem_of_lookupMnemonic {m : List Char} {row : Int × OperandClass}
    {table : List (List Char × Int × OperandClass)} (h : lookupMnemonic m table = some row) : (m, row) ∈ table := by
  induction table with
  | nil => cases h
  | cons r table ih =>
    unfold lookupMnemonic at h
    split at h
    next hname =>
      cases h
      exact hname ▸ List.mem_cons_self
    next => exact List.mem_cons_of_mem _ (ih h)

/-- The table's opcode values are defined ones, and no mnemonic is DAT, ORG or a label definition (R74, R244). -/
theorem mnemonicTable_rows : ∀ r ∈ mnemonicTable, (-13 < r.2.1 ∧ r.2.1 < 13 ∧ r.2.1 ≠ 0) ∧
    r.1 ≠ ['D', 'A', 'T'] ∧ r.1 ≠ ['O', 'R', 'G'] ∧ endsInColon r.1 = false := by
  decide

/-- The table names each opcode value once (R74, R244). -/
theorem mnemonicTable_opc_injective :
    ∀ r ∈ mnemonicTable, ∀ r' ∈ mnemonicTable, r.2.1 = r'.2.1 → r = r' := by
  decide

/-- Every defined instruction has its row in the table (R244). -/
theorem lookupMnemonic_of_defined (i : Instr) (h : i.undefined = false) :
    ∃ m, mnemonicOf i = some m ∧ lookupMnemonic m mnemonicTable = some (i.opc, i.opClass) := by
  cases i with
  | undefNnn n | undefOoo n | undefPpp n => cases h
  | _ => exact ⟨_, rfl, rfl⟩

/-- An instruction with a row's opcode value is that row's: the opcode value is defined, and names one row (R74). -/
theorem mnemonicOf_of_lookup {m : List Char} {i : Instr} {cls : OperandClass}
    (h : lookupMnemonic m mnemonicTable = some (i.opc, cls)) : mnemonicOf i = some m ∧ i.opClass = cls := by
  have hrow := mem_of_lookupMnemonic h
  have hdefined : i.undefined = false := by
    obtain ⟨hopc, -⟩ := mnemonicTable_rows _ hrow
    refine Bool.eq_false_iff.2 fun hundef => ?_
    have hvalues := (Instr.undefined_iff_opc i).1 hundef
    dsimp only at hopc
    omega
  obtain ⟨m', hname, hlookup⟩ := lookupMnemonic_of_defined i hdefined
  have hsame := mnemonicTable_opc_injective _ hrow _ (mem_of_lookupMnemonic hlookup) rfl
  obtain ⟨rfl, hcls⟩ : m = m' ∧ cls = i.opClass := by simpa using hsame
  exact ⟨hname, hcls.symm⟩

/-- DAT with a literal is a data line (R251). -/
theorem parseRest_dat {t : List Char} {v : Int} (h : parseLiteral t = some v) :
    parseRest [['D', 'A', 'T'], t] = .ok (.emit (.data v)) := by
  have hcolon : endsInColon ['D', 'A', 'T'] = false := rfl
  simp [parseRest, hcolon, parseAction, literalOnly, h, Except.map]

/-- A table mnemonic is an instruction's, with what its operand stands for (R244, R252). -/
theorem parseAction_mnemonic {m : List Char} {opc : Int} {cls : OperandClass}
    (h : lookupMnemonic m mnemonicTable = some (opc, cls)) (o : Option (List Char)) :
    parseAction m o = (instructionOperand cls o).map fun op => .emit (.instruction opc op) := by
  obtain ⟨-, hdat, horg, -⟩ := mnemonicTable_rows _ (mem_of_lookupMnemonic h)
  rw [parseAction, if_neg hdat, if_neg horg, h]

/-- A table mnemonic is no label definition (R242). -/
theorem endsInColon_mnemonic {m : List Char} {row : Int × OperandClass}
    (h : lookupMnemonic m mnemonicTable = some row) : endsInColon m = false := by
  obtain ⟨-, -, -, hcolon⟩ := mnemonicTable_rows _ (mem_of_lookupMnemonic h)
  exact hcolon

/-- A data item's Word has the literal's value (R257). -/
theorem val_of_itemWord_data {labels : List (List Char × Int)} {v : Int} {w : Word}
    (h : itemWord labels (.data v) = .ok w) : w.val = v := by
  by_cases hv : -9841 ≤ v ∧ v ≤ 9841
  · obtain rfl : Word.ofInt v = w := by simpa [itemWord, Word.encode_of_mem hv] using h
    exact Word.val_ofInt hv
  · simp [itemWord, Word.encode_of_not_mem (n := v) (by omega)] at h

/-- An instruction item's Word has its opcode and the resolved operand in its fields (R257). -/
theorem fields_of_itemWord_instruction {labels : List (List Char × Int)} {opc : Int} {op : AsmOperand} {w : Word}
    (hopc : -13 ≤ opc ∧ opc ≤ 13) (h : itemWord labels (.instruction opc op) = .ok w) :
    ∃ v, operandValue labels op = .ok v ∧ w.opcField = opc ∧ w.opndField = v := by
  cases hv : operandValue labels op with
  | error k => simp [itemWord, hv] at h
  | ok v =>
    by_cases hrange : -364 ≤ v ∧ v ≤ 364
    · have hw : Word.ofInt (opc * 729 + v) = w := by
        simpa [itemWord, hv, Config.opdMax, Config.opdMod, hrange] using h
      exact ⟨v, rfl, hw ▸ Word.fields_ofInt hopc hrange⟩
    · simp [itemWord, hv, Config.opdMax, hrange] at h

/-- What the cells of an assembled image hold, line by line and emission by emission, and what its entry is
(R252, R257, R262). -/
theorem assembled_cells {src : List Char} {p : Pass1} {img : Image}
    (hpass1 : pass1 (sourceLines src) Pass1.start = .ok p) (h : assemble src = .ok img) :
    (∀ e ∈ p.emissions,
      (∀ v, e.item = .data v → ∃ w, (e.addr, w) ∈ img.cells ∧ w.val = v) ∧
      (∀ opc op, e.item = .instruction opc op → ∃ w v, (e.addr, w) ∈ img.cells ∧
        operandValue p.labels op = .ok v ∧ w.opcField = opc ∧ w.opndField = v)) ∧
    (∀ c ∈ img.cells, ∃ e ∈ p.emissions, e.addr = c.1) ∧ img.labels = p.labels ∧
      img.entry = entryOf p.emissions := by
  obtain ⟨p', cells, hpass1', hpass2, rfl⟩ := assemble_ok h
  obtain rfl : p = p' := by simpa [hpass1] using hpass1'
  have hwf := Pass1.start_emissionsWf.pass1 hpass1
  refine ⟨fun e he => ?emission, fun c hc => ?cell, rfl, rfl⟩
  case emission =>
    obtain ⟨w, hw, hcell⟩ := pass2_resolves hpass2 he
    refine ⟨fun v hitem => ⟨w, hcell, val_of_itemWord_data (hitem ▸ hw)⟩, fun opc op hitem => ?instruction⟩
    obtain ⟨m, cls, hrow⟩ : (Item.instruction opc op).fromTable := hitem ▸ hwf.fromTable e he
    obtain ⟨hopc, -⟩ := mnemonicTable_rows _ (mem_of_lookupMnemonic hrow)
    dsimp only at hopc
    obtain ⟨v, hfields⟩ := fields_of_itemWord_instruction (by omega) (hitem ▸ hw)
    exact ⟨w, v, hcell, hfields⟩
  case cell =>
    obtain ⟨e, he, haddr, -⟩ := (mem_pass2_iff hpass2 c).1 hc
    exact ⟨e, he, haddr⟩

/-- Settles O38: it holds. Pass 1 leaves an emission for each emitting line, pass 2 a cell for each emission, and
the table and the decoder have the same rows. -/
theorem assembledWordsSayWhatTheSourceSays : Obligations.AssembledWordsSayWhatTheSourceSays := by
  refine ⟨fun src p img hpass1 h => ?image, fun m opc cls w hrow hopc => ?decodes, lookupMnemonic_of_defined,
    fun t v => parseRest_dat, fun m t opc cls op hrow hop => ?withOperand, fun m opc cls hrow =>
      ⟨fun hZ => ?classZ, fun hZ => ?missing⟩⟩
  case image =>
    obtain ⟨hemissions, hcells, hlabels, hentry⟩ := assembled_cells hpass1 h
    refine ⟨fun line hline label rest item => pass1_emits hpass1 hline, hemissions, hcells, hlabels,
      fun before e after hsplit hdata hinstruction => ?first, fun hdata => ?noInstruction⟩
    case first =>
      obtain ⟨opc, op, hitem⟩ := hinstruction
      rw [hentry, hsplit, entryOf_append hdata, entryOf, hitem]
    case noInstruction =>
      have hnone := entryOf_append hdata []
      rw [List.append_nil] at hnone
      rw [hentry, hnone]
      rfl
  case decodes =>
    obtain rfl : (decode w).opc = opc := (decode_opc w).trans hopc
    obtain ⟨hname, hcls⟩ := mnemonicOf_of_lookup hrow
    exact ⟨hname, hcls, decode_opnd w⟩
  case withOperand =>
    simp [parseRest, endsInColon_mnemonic hrow, parseAction_mnemonic hrow, instructionOperand, hop, Except.map]
  case classZ =>
    simp [parseRest, endsInColon_mnemonic hrow, parseAction_mnemonic hrow, instructionOperand, hZ, Except.map]
  case missing =>
    simp [parseRest, endsInColon_mnemonic hrow, parseAction_mnemonic hrow, instructionOperand, hZ, Except.map]

end Sys2Proof.Machine
end
